-- ==== Sys2Proof/Word.lean ====
section
/-! DEFINITION. The two widths of the engine (spec/00_scope.md R7, R10): a byte has 8 bits, a command, LEN or response word 32. -/

namespace Sys2Proof

/-- `Bits8` (R10): the accumulator, each data byte, each table index, each table entry (R7). -/
abbrev Byte := BitVec 8

/-- `Bits32` (R10): a command word, a `LEN` operand word, a response word. -/
abbrev Word := BitVec 32

end Sys2Proof
end

