-- ==== Sys2Proof/Config.lean ====
section
/-! DEFINITION. The parameters of the engine that the spec leaves open: the table `CRC8_TABLE` (spec/00_scope.md R6, decision D9)
and the bound `MAX_AVAIL` (R8, decision D22). Both rest on constants without a body, so no proof can use a value of them. -/

namespace Sys2Proof

/-- A CRC8 lookup table (spec/10_state.md R15, R16): 256 entries of 8 bits, with the one property the spec fixes, `T[0x00] = 0x00`
(R18). The property is part of the type, so that a table that breaks it cannot be built: R18 says it "must be refused". -/
structure Table where
  /-- Entry `i` of the table, for each of the 256 byte values `i`. -/
  entries : Vector Byte 256
  /-- R18: `T[0x00] = 0x00`. No other property of the table is normative. -/
  zeroEntry : entries[0] = 0x00#8
deriving DecidableEq, Repr

/-- A FREE VALUE: the entries of `CRC8_TABLE` other than entry 0, which no document gives (spec/91_not_in_source.md N1, D9 `OPEN`).
Log entry 1. -/
opaque Config.crc8Entry : Byte → Byte

/-- `CRC8_TABLE` (R6): constrained by `T[0] = 0x00` and by nothing else. Log entry 1. -/
def Config.crc8Table : Table where
  entries := Vector.ofFn fun i : Fin 256 => if i = 0 then 0x00#8 else Config.crc8Entry (BitVec.ofFin i)
  zeroEntry := by simp

/-- A FREE VALUE: `MAX_AVAIL` (R8), the largest number of bytes a caller may present on the buffer port (D22 `OPEN`). Log entry 8. -/
opaque Config.maxAvail : Nat

end Sys2Proof
end

