-- ==== Sys2Proof/Syntax.lean ====
section
/-! DEFINITION. The two operations of the engine as syntax: one constructor per row of spec/opcode_table.json. -/

namespace Sys2Proof

/-- An operation with its operands assembled (spec/30_encoding.md R46 to R48). Every value of every field is legal, so every term is
well formed: a field has exactly the width the spec gives it. -/
inductive Instr where
  /-- `CRC8.BYTE` (R44, R60): `crc = CMD[15:8]`, `data = CMD[7:0]`. -/
  | byte (crc data : Byte)
  /-- `CRC8.BUF` (R45, R62): `crc = CMD[15:8]`, `len` the operand word `LEN`. The bytes come from the buffer port. -/
  | buf (crc : Byte) (len : Word)
deriving DecidableEq, Repr

end Sys2Proof
end

