-- ==== Sys2Proof/Decode.lean ====
section
/-! DEFINITION. Decoding of a command word (spec/30_encoding.md R43 to R54), and after it the encoder (R55, R58). Command and `LEN`
words are whole 32-bit values (spec/20_memory.md R29): the decoder reads words, and no byte order arises. -/

namespace Sys2Proof

/-- The one reason decoding gives: every illegal word raises `IllegalOperation(CMD)` (R50, R52). -/
inductive DecodeError where
  /-- `IllegalOperation(CMD)` with the word that raised it (R74). -/
  | illegalOperation (cmd : Word)
deriving DecidableEq, Repr

/-- `OPC = CMD[31:24]` (R44, R45). -/
def fieldOpc (cmd : Word) : Byte := cmd.extractLsb' 24 8

/-- `RSV0 = CMD[23:16]`, reserved in both formats (R44, R45). -/
def fieldRsv0 (cmd : Word) : Byte := cmd.extractLsb' 16 8

/-- `CRC = CMD[15:8]` in both formats (R46). -/
def fieldCrc (cmd : Word) : Byte := cmd.extractLsb' 8 8

/-- `DATA = CMD[7:0]` in format B (R47). -/
def fieldData (cmd : Word) : Byte := cmd.extractLsb' 0 8

/-- `RSV1 = CMD[7:0]`, reserved in format L (R45). -/
def fieldRsv1 (cmd : Word) : Byte := cmd.extractLsb' 0 8

/-- The OPC of `CRC8.BYTE` (R49). -/
def opcByte : Byte := 0x01#8

/-- The OPC of `CRC8.BUF` (R49). -/
def opcBuf : Byte := 0x02#8

/-- The decode function of R50, total on every 32-bit word. `len` is the operand word the request brings; it is taken only when `cmd`
decodes to `CRC8.BUF` (R43). -/
def decode (cmd len : Word) : Except DecodeError Instr :=
  if fieldOpc cmd = opcByte ∧ fieldRsv0 cmd = 0x00#8 then
    .ok (.byte (fieldCrc cmd) (fieldData cmd))
  else if fieldOpc cmd = opcBuf ∧ fieldRsv0 cmd = 0x00#8 ∧ fieldRsv1 cmd = 0x00#8 then
    .ok (.buf (fieldCrc cmd) len)
  else
    .error (.illegalOperation cmd)

/-- The command word of an operation (R58). -/
def encodeCmd : Instr → Word
  | .byte crc data => 0x01000000#32 ||| (crc.setWidth 32 <<< 8) ||| data.setWidth 32
  | .buf crc _ => 0x02000000#32 ||| (crc.setWidth 32 <<< 8)

/-- The words of an operation's request, the command word first: a `LEN` word follows exactly for `CRC8.BUF` (R43, R54). -/
def encode : Instr → List Word
  | .byte crc data => [encodeCmd (.byte crc data)]
  | .buf crc len => [encodeCmd (.buf crc len), len]

/-- The two words that spec/opcode_table.json numbers as one row of bits: bit 0 is bit 0 of the command word, bit 32 is bit 0 of the
`LEN` word, and every bit at `nbits` or above is 0. Log entry 13. -/
def wordsOfTable (nbits w : Nat) : Word × Word :=
  (BitVec.ofNat 32 (w % 2 ^ nbits), BitVec.ofNat 32 ((w % 2 ^ nbits) / 2 ^ 32))

/-- The operation this decoder reads from a row of bits; none where it raises `IllegalOperation`. -/
def decodeTableWord (nbits w : Nat) : Option Instr :=
  match decode (wordsOfTable nbits w).1 (wordsOfTable nbits w).2 with
  | .ok i => some i
  | .error _ => none

end Sys2Proof
end

