-- ==== Sys2Proof/Machine/State.lean ====
section
/-! DEFINITION. The state of the engine and of a run of it: the one architectural piece, the table (spec/10_state.md R15), and the
record of a run: requests that wait, responses delivered, faults (spec/60_exceptions.md R82, R88). No field holds a function. -/

namespace Sys2Proof.Machine

/-- A request (spec/30_encoding.md R43, spec/00_scope.md R14): the command word, the operand word and the buffer port. `AVAIL` is the
length of `buf`. `len` and `buf` are taken only when `cmd` decodes to `CRC8.BUF` (R43). Log entry 12. -/
structure Request where
  /-- The command word `CMD`. -/
  cmd : Word
  /-- The operand word `LEN`. -/
  len : Word
  /-- The buffer port (spec/20_memory.md R27): `BUF[0]` first, read-only, its contents fixed at issue (R93, log entry 7). -/
  buf : List Byte
deriving DecidableEq, Repr

/-- A request with the caller that issued it. The engine does not see the number (R85); the response goes back by it (R73). Log entry 3. -/
structure Issued where
  /-- The model's number of the caller. -/
  caller : Nat
  /-- What the caller presents to the engine. -/
  request : Request
deriving DecidableEq, Repr

/-- A response delivered: the response word `RESP` (R57) and the caller it went to (R73). Log entry 4. -/
structure Delivery where
  /-- The model's number of the caller. -/
  caller : Nat
  /-- The response word `RESP`. -/
  resp : Word
deriving DecidableEq, Repr

/-- The two faults of the engine, as the fault record keeps them (R82). A fault is a RESPONSE that ends one request, after which the
engine accepts the next request as after a result (R73): it never stops the machine, so no step answers `Host.Outcome.fault`. Log entry 5. -/
inductive Fault where
  /-- `IllegalOperation`, code `0x01` (R74). Raised by the step when the command word does not decode; safe: the spec gives that response. -/
  | illegalOperation (cmd : Word)
  /-- `BufferOverrun`, code `0x02` (R75). Raised by `CRC8.BUF` when `LEN > AVAIL`; safe: the spec gives that response (D7). -/
  | bufferOverrun (cmd len : Word) (avail : Nat)
deriving DecidableEq, Repr

/-- An entry of the fault record (R82): the fault, with its code, command word and, for `BufferOverrun`, `LEN` and `AVAIL`, and the caller
whose request raised it (R73), since the run that R88 speaks of is one caller's. Log entries 3, 20. -/
structure FaultEntry where
  /-- The model's number of the caller. -/
  caller : Nat
  /-- What was raised. -/
  fault : Fault
deriving DecidableEq, Repr

/-- Why the model gives an instruction no meaning. No arm of `exec` answers it: both operations are modelled. -/
inductive Refusal where
  /-- An instruction without a meaning yet, by its mnemonic (raised by an arm of `exec` only; none is left). Safe. -/
  | notModelled (mnemonic : String)
deriving DecidableEq, Repr

/-- The engine and the record of a run. -/
structure State where
  /-- The CRC8 table `T`, the engine's only architectural state (R15), read-only (R17). -/
  table : Table
  /-- The requests issued and not yet answered, the one the engine serves next first. Log entry 2. -/
  pending : List Issued
  /-- The responses delivered so far, oldest first (R57, R88). The engine never reads it. Log entry 4. -/
  delivered : List Delivery
  /-- The fault record, oldest first (R82): "a modelling device, not engine state". The engine never reads it. -/
  faultRecord : List FaultEntry
deriving DecidableEq, Repr

/-- After reset (R26, R89): the table holds `CRC8_TABLE`, no request is in progress, the fault record is empty. That nothing has been
delivered yet is DEDUCED, log entry 18. There is no other reset value (R90). -/
def State.reset : State where
  table := Config.crc8Table
  pending := []
  delivered := []
  faultRecord := []

end Sys2Proof.Machine
end

