-- ==== Sys2Proof/Machine/Operands.lean ====
section
/-! DEFINITION. Where the operands come from that are not fields of the command word: the request in progress and its buffer port
(spec/30_encoding.md R43, spec/20_memory.md R27, R33). The fields `CRC`, `DATA` and the `LEN` word are assembled by the decoder. -/

namespace Sys2Proof.Machine

/-- The request in progress: the first of those that wait; none while the engine waits for one (R91). -/
def inProgress (s : State) : Option Issued := s.pending.head?

/-- The buffer port of the request in progress (R27), with no bytes where there is none (R91). -/
def bufferPort (s : State) : List Byte :=
  match s.pending with
  | [] => []
  | q :: _ => q.request.buf

/-- `AVAIL`: the number of bytes on a buffer port (R14). -/
abbrev avail (buf : List Byte) : Nat := buf.length

/-- `BufRead(i)` (R33): byte `i` of the buffer port. It has no value at `i >= AVAIL`, and no operation reads there. -/
def bufRead (buf : List Byte) (i : Nat) : Option Byte := buf[i]?

/-- The bytes `BUF[0]` to `BUF[LEN - 1]` in increasing index order (R30), and no others (R34). -/
def bufBytes (buf : List Byte) (len : Word) : List Byte := buf.take len.toNat

/-- The command word that a fault of the request in progress is recorded with (R75, R82). Log entry 16. -/
def commandInProgress (s : State) : Word :=
  match s.pending with
  | [] => 0#32
  | q :: _ => q.request.cmd

end Sys2Proof.Machine
end

