-- ==== Sys2Proof/Machine/Response.lean ====
section
/-! DEFINITION. Responses and the response word `RESP` (spec/30_encoding.md R57), and the fault codes (spec/60_exceptions.md R76). -/

namespace Sys2Proof.Machine

/-- The fault causes that have a code (R76). -/
inductive FaultCode where
  /-- `0x01`, R74. -/
  | illegalOperation
  /-- `0x02`, R75. -/
  | bufferOverrun
deriving DecidableEq, Repr

/-- A response (R14, R57): `ok(crc')` or `fault(code)`. -/
inductive Response where
  /-- A result, the byte `crc'`. -/
  | ok (crc : Byte)
  /-- A fault, with no result byte (R73). -/
  | fault (code : FaultCode)
deriving DecidableEq, Repr

/-- The code byte of R76. -/
def faultCodeByte : FaultCode → Byte
  | .illegalOperation => 0x01#8
  | .bufferOverrun => 0x02#8

/-- The fault cause of a code byte; none for `0x00` and `0x03` to `0xFF`, which are never produced (R76, I8). -/
def faultCodeOfByte? (b : Byte) : Option FaultCode :=
  if b = 0x01#8 then some .illegalOperation
  else if b = 0x02#8 then some .bufferOverrun
  else none

/-- The code of an entry of the fault record. -/
def faultCodeOf : Fault → FaultCode
  | .illegalOperation _ => .illegalOperation
  | .bufferOverrun _ _ _ => .bufferOverrun

/-- The response word `RESP` (R57). -/
def encodeResp : Response → Word
  | .ok crc => crc.setWidth 32
  | .fault code => 0x80000000#32 ||| ((faultCodeByte code).setWidth 32 <<< 8)

/-- The response a word stands for (R57); none for a word that is no response (a reserved bit set, or a code never produced, R76). -/
def decodeResp (resp : Word) : Option Response :=
  if resp.getLsbD 31 then
    if resp.extractLsb' 16 15 = 0#15 ∧ resp.extractLsb' 0 8 = 0x00#8 then
      (faultCodeOfByte? (resp.extractLsb' 8 8)).map .fault
    else none
  else if resp.extractLsb' 8 23 = 0#23 then some (.ok (resp.extractLsb' 0 8))
  else none

/-- The result byte `crc' = RESP[7:0]` of a result; none for a fault (R57, R73). -/
def resultByte? (resp : Word) : Option Byte :=
  match decodeResp resp with
  | some (.ok crc) => some crc
  | _ => none

/-- The fault a response word reports; none for a result. -/
def reportedFault? (resp : Word) : Option FaultCode :=
  match decodeResp resp with
  | some (.fault code) => some code
  | _ => none

end Sys2Proof.Machine
end

