-- ==== Sys2Proof/WellFormed.lean ====
section
/-! DEFINITION. The checks of what comes from outside the engine: the table parameter (spec/10_state.md R18) and the number of bytes a
caller presents (spec/00_scope.md R8). A term of `Instr` needs no check: R46 and R47 make every operand value legal and a `LEN` above
`AVAIL` is a fault of the run, not an ill-formed operation (R48). -/

namespace Sys2Proof

/-- R18: a table parameter is well formed when its entry 0 is `0x00`; nothing else is asked of it. -/
def tableWf (entries : Vector Byte 256) : Bool := entries[0] == 0x00#8

/-- R18: the table with these entries, or a refusal where the invariant does not hold. -/
def Table.ofEntries? (entries : Vector Byte 256) : Option Table :=
  if h : entries[0] = 0x00#8 then some ⟨entries, h⟩ else none

/-- R8: a caller presents at most `MAX_AVAIL` bytes on the buffer port. That the check is asked of every request, and not of `CRC8.BUF`
requests only, is the model's choice (log entry 8, DESIGN CHOICE). -/
def availWf (avail : Nat) : Bool := decide (avail ≤ Config.maxAvail)

end Sys2Proof
end

