-- ==== Sys2Proof/Machine/Ops.lean ====
section
/-! DEFINITION. The shared operations: reading the table, the byte step and its fold, delivering a response, raising a fault, and a
caller that issues a request. -/

namespace Sys2Proof.Machine

/-- `T[i]` (spec/10_state.md R16): every index 0 to 255 is valid; a read has no side effect. -/
def tableRead (T : Table) (i : Byte) : Byte := T.entries[i.toNat]'i.isLt

/-- The single-byte update (spec/40_crc8_update.md R60): `T[crc XOR data]`. -/
def update (T : Table) (crc data : Byte) : Byte := tableRead T (crc ^^^ data)

/-- The fold of the single-byte update (spec/00_scope.md R12) over bytes in order. -/
def updateAll (T : Table) (crc : Byte) (bytes : List Byte) : Byte := bytes.foldl (update T) crc

/-- Delivers the response word of the request in progress to the caller that issued it, and ends the request (spec/30_encoding.md R57,
R43: exactly one response). With no request in progress there is none to answer and nothing changes (log entry 10). -/
def respond (r : Response) (s : State) : State :=
  match s.pending with
  | [] => s
  | q :: rest => { s with pending := rest, delivered := s.delivered ++ [⟨q.caller, encodeResp r⟩] }

/-- TAKES a fault of the request in progress (spec/60_exceptions.md R73, R82): the response `fault(code)` and no result byte, and an entry
of the fault record, under the caller of the request. Nothing is saved, no mode changes, control goes nowhere, and there is no return from it (R80, R81). -/
def raise (f : Fault) (s : State) : State :=
  match s.pending with
  | [] => s
  | q :: _ => { respond (.fault (faultCodeOf f)) s with faultRecord := s.faultRecord ++ [⟨q.caller, f⟩] }

/-- The operation of the request in progress, or the reason its command word does not decode; none while the engine waits. The engine
decodes `CMD` first (R43). -/
def decodeInProgress (s : State) : Option (Except DecodeError Instr) :=
  (inProgress s).map fun q => decode q.request.cmd q.request.len

/-- A command word that is no operation (R74): the fault `IllegalOperation`, before any operand is used. -/
def raiseDecodeError (e : DecodeError) (s : State) : State :=
  match e with
  | .illegalOperation cmd => raise (.illegalOperation cmd) s

/-- A request joins those that wait, as the last of them (spec/60_exceptions.md R84: any caller may issue; R83: any request). Log entry 2. -/
def present (caller : Nat) (r : Request) (s : State) : State :=
  { s with pending := s.pending ++ [⟨caller, r⟩] }

/-- A caller presents a request within the bound of the buffer port: at most `MAX_AVAIL` bytes (spec/00_scope.md R8); none where it would
present more. DESIGN CHOICE: R8 bounds the port of a `CRC8.BUF` request; the model applies the bound to every request, whatever its
command word, and turns away the others with more bytes too (log entry 8). This is the input of the outside world; it lands between steps. -/
def issue? (caller : Nat) (r : Request) (s : State) : Option State :=
  if availWf (avail r.buf) then some (present caller r s) else none

/-- The request that a row of bits of spec/opcode_table.json stands for, with an empty buffer port. Log entry 11. -/
def requestOfTable (nbits w : Nat) : Request where
  cmd := (wordsOfTable nbits w).1
  len := (wordsOfTable nbits w).2
  buf := []

end Sys2Proof.Machine
end

