-- ==== Sys2Proof/Machine/Crc8.lean ====
section
/-! DEFINITION. The family of spec/40_crc8_update.md: the meanings of `CRC8.BYTE` and `CRC8.BUF`. -/

namespace Sys2Proof.Machine

/-- `CRC8.BYTE` (R60): response `ok(T[crc XOR data])`. It never faults (R77). -/
def execByte (crc data : Byte) (s : State) : Host.Outcome State Fault Refusal :=
  .next (respond (.ok (update s.table crc data)) s)

/-- `CRC8.BUF` (R62): `BufferOverrun` when `LEN > AVAIL`, checked before the first read (R75); otherwise the response is the fold of the
first `LEN` bytes of the buffer port, from the accumulator `crc`. -/
def execBuf (crc : Byte) (len : Word) (s : State) : Host.Outcome State Fault Refusal :=
  if len.toNat > avail (bufferPort s) then
    .next (raise (.bufferOverrun (commandInProgress s) len (avail (bufferPort s))) s)
  else
    .next (respond (.ok (updateAll s.table crc (bufBytes (bufferPort s) len))) s)

end Sys2Proof.Machine
end

