-- ==== Sys2Proof/Machine/Dispatch.lean ====
section
/-! DEFINITION. The meaning of each operation, one arm per constructor of `Instr`. -/

namespace Sys2Proof.Machine

def exec (i : Instr) (s : State) : Host.Outcome State Fault Refusal :=
  match i with
  | .byte crc data => Sys2Proof.Machine.execByte crc data s
  | .buf crc len => Sys2Proof.Machine.execBuf crc len s

end Sys2Proof.Machine
end

