-- ==== Sys2Proof/Machine/Step.lean ====
section
/-! DEFINITION. One step of the engine: one request, from decoding to its response (spec/60_exceptions.md R84, spec/20_memory.md R36). -/

namespace Sys2Proof.Machine

/-- The engine serves the request in progress: it decodes `CMD` first (R43), answers a word that is no operation with
`IllegalOperation` (R74), and otherwise runs the operation. With no request it waits (R91, log entry 6). -/
def step (s : State) : Host.Outcome State Fault Refusal :=
  match decodeInProgress s with
  | none => .next s
  | some (.error e) => .next (raiseDecodeError e s)
  | some (.ok i) => exec i s

/-- A caller presents the request that a row of bits stands for, with an empty buffer port, and the engine serves it next. The engine
fetches nothing (spec/10_state.md R21), so this is what stands for loading a program. Log entry 11. -/
def State.withFetchWord (s : State) (nbits w : Nat) : State :=
  { s with pending := ⟨0, requestOfTable nbits w⟩ :: s.pending }

end Sys2Proof.Machine
end

