-- ==== Sys2Proof/Machine/BufSteps.lean ====
section
/-! DEFINITION. The step-wise realisation of `CRC8.BUF` (spec/40_crc8_update.md R67) over the internal state of spec/10_state.md R24. The
machine computes the fold in one step, which R24 and R67 allow; this second form is what the claim of their agreement is about. -/

namespace Sys2Proof.Machine

/-- The internal state of a `CRC8.BUF` request in progress (R24): a running accumulator of 8 bits and a byte index of 32 bits. -/
structure FoldState where
  /-- The running accumulator. -/
  acc : Byte
  /-- The index of the next byte. -/
  index : Word
deriving DecidableEq, Repr

/-- The internal state before the first byte step: `acc = crc`, index 0 (R62). -/
def foldStart (crc : Byte) : FoldState := ⟨crc, 0#32⟩

/-- One hidden byte step (R67): `acc <- T[acc XOR BUF[i]]`, then the next index. No step where `BufRead(i)` has no value (R33). -/
def foldStep (T : Table) (buf : List Byte) (f : FoldState) : Option FoldState :=
  match bufRead buf f.index.toNat with
  | some b => some ⟨update T f.acc b, f.index + 1#32⟩
  | none => none

/-- `n` hidden byte steps. -/
def foldSteps (T : Table) (buf : List Byte) : Nat → FoldState → Option FoldState
  | 0, f => some f
  | n + 1, f =>
    match foldStep T buf f with
    | some f' => foldSteps T buf n f'
    | none => none

end Sys2Proof.Machine
end

