-- ==== Sys2Proof/Machine/Caller.lean ====
section
/-! DEFINITION. The caller's side of the interface: the requests of the spec's syntax (spec/30_encoding.md R55), one request with its
response, and the byte loop that threads an accumulator (spec/20_memory.md R39, spec/70_reset_and_hazards.md R96). Log entry 19. -/

namespace Sys2Proof.Machine

/-- `crc8.byte <crc>, <data>` (R55). -/
def byteRequest (crc data : Byte) : Request where
  cmd := encodeCmd (.byte crc data)
  len := 0#32
  buf := []

/-- `crc8.buf <crc>, <len>, [<b0>, ..., <bm-1>]` (R55). -/
def bufRequest (crc : Byte) (len : Word) (buf : List Byte) : Request where
  cmd := encodeCmd (.buf crc len)
  len := len
  buf := buf

/-- The engine serves every request that waits, one step each (spec/70_reset_and_hazards.md R99). -/
def serveAll (s : State) : Host.Outcome State Fault Refusal :=
  Host.Core.run Sys2Proof.core s.pending.length s

/-- A caller presents one request and takes its response word: the request waits behind those already issued, so its response is the
last one delivered. -/
def call (caller : Nat) (r : Request) (s : State) : Option (Word × State) :=
  match serveAll (present caller r s) with
  | .next t => (t.delivered.getLast?).map fun d => (d.resp, t)
  | .fault _ => none
  | .refused _ => none

/-- The byte loop of a checksum (spec/40_crc8_update.md R63): one `CRC8.BYTE` request per byte in order, each with the result byte of
the one before it as its `CRC` field. The accumulator is the caller's variable (spec/10_state.md R25). -/
def byteLoop (caller : Nat) : Byte → List Byte → State → Option (Byte × State)
  | acc, [], s => some (acc, s)
  | acc, b :: bytes, s =>
    match call caller (byteRequest acc b) s with
    | none => none
    | some (resp, t) =>
      match resultByte? resp with
      | none => none
      | some acc' => byteLoop caller acc' bytes t

end Sys2Proof.Machine
end

