-- ==== Sys2Proof/Safety.lean ====
section
/-! DEFINITION. What the claims are about: the end of a run and its success (spec/60_exceptions.md R88), what one caller sees, the answer
to a request taken alone (spec/20_memory.md R38), and the invariant of a run. -/

namespace Sys2Proof.Machine

/-- The requests of one caller among those that wait, in the order it issued them. -/
def requestsOf (caller : Nat) (s : State) : List Issued :=
  s.pending.filter fun q => q.caller == caller

/-- The responses delivered to one caller, oldest first. -/
def deliveriesTo (caller : Nat) (s : State) : List Delivery :=
  s.delivered.filter fun d => d.caller == caller

/-- The observation of a caller's run (R88): its result bytes, in issue order. -/
def observation (caller : Nat) (s : State) : List Byte :=
  (deliveriesTo caller s).filterMap fun d => resultByte? d.resp

/-- The last result byte a caller observes: for a checksum computation, the final checksum (R88); none before the first. -/
def finalChecksum (caller : Nat) (s : State) : Option Byte := (observation caller s).getLast?

/-- The entries of the fault record that one caller's requests raised: the record of that caller's run (R82, log entry 20). -/
def faultsOf (caller : Nat) (s : State) : List FaultEntry :=
  s.faultRecord.filter fun e => e.caller == caller

/-- A caller's run has ended (R88): every request it issued has its response. -/
def ended (caller : Nat) (s : State) : Bool := (requestsOf caller s).isEmpty

/-- A caller's run has ended and succeeded (R88): every request it issued has its response, every response it got is `ok(...)`, and the
fault record of its run is empty. What other callers do has no part in it. -/
def succeeded (caller : Nat) (s : State) : Bool :=
  ended caller s && (deliveriesTo caller s).all (fun d => (resultByte? d.resp).isSome) && (faultsOf caller s).isEmpty

/-- The runs of all callers together have ended and succeeded. -/
def allSucceeded (s : State) : Bool :=
  s.pending.isEmpty && s.delivered.all (fun d => (resultByte? d.resp).isSome) && s.faultRecord.isEmpty

/-- The response word the engine gives to a request alone: a run that holds nothing else. -/
def answerAlone (T : Table) (r : Request) : Option Word :=
  match step { table := T, pending := [⟨0, r⟩], delivered := [], faultRecord := [] } with
  | .next t => (t.delivered.head?).map fun d => d.resp
  | .fault _ => none
  | .refused _ => none

/-- An entry of the fault record names what R74 and R75 raise it for: a word that is no operation; a `CRC8.BUF` with `LEN > AVAIL`. -/
def Justified : Fault → Prop
  | .illegalOperation cmd => ∀ len, decode cmd len = .error (.illegalOperation cmd)
  | .bufferOverrun cmd len avail => avail < len.toNat ∧ ∃ crc, decode cmd len = .ok (.buf crc len)

/-- What a request raises and is answered with, where it raises a fault: `IllegalOperation` and the word of `fault(0x01)` for a command
word that is no operation (R74); `BufferOverrun` and the word of `fault(0x02)` for a `CRC8.BUF` with `LEN > AVAIL` (R75). -/
def Raises (r : Request) (f : Fault) (resp : Word) : Prop :=
  ((∀ i, decode r.cmd r.len ≠ .ok i) ∧ f = .illegalOperation r.cmd ∧ resp = 0x80000100#32) ∨
  ((∃ crc, decode r.cmd r.len = .ok (.buf crc r.len)) ∧ r.buf.length < r.len.toNat ∧
    f = .bufferOverrun r.cmd r.len r.buf.length ∧ resp = 0x80000200#32)

/-- What an entry of the fault record says was delivered: a code, to a caller. -/
def faultReported (e : FaultEntry) : Nat × FaultCode := (e.caller, faultCodeOf e.fault)

/-- What a response delivered says of the fault record: a code, to a caller; none for a result. -/
def faultDelivered? (d : Delivery) : Option (Nat × FaultCode) :=
  (reportedFault? d.resp).map fun code => (d.caller, code)

/-- The invariant of a run. -/
structure Inv (s : State) : Prop where
  /-- R8: no request that waits has more than `MAX_AVAIL` bytes on its buffer port (of every command word: log entry 8, DESIGN CHOICE). -/
  portsBounded : ∀ q ∈ s.pending, avail q.request.buf ≤ Config.maxAvail
  /-- R57, R76: every response delivered is a response word, with a code that R76 allows. -/
  responsesLegal : ∀ d ∈ s.delivered, (decodeResp d.resp).isSome
  /-- R82: the fault record holds every fault response, in order, each under the caller it went to, and nothing else. -/
  recordComplete : s.faultRecord.map faultReported = s.delivered.filterMap faultDelivered?
  /-- R74, R75: every entry of the fault record stands for the condition that raises it. -/
  recordJustified : ∀ e ∈ s.faultRecord, Justified e.fault

end Sys2Proof.Machine
end

