-- ==== Sys2Proof/Certificates/Slice0/Obligations.lean ====
section
/-! DEFINITION. The statements about the engine, for the provers. Each says in its docstring which rule of spec/ it formalises. Command
and response words are written out here from the spec's bit positions, beside the model's own decoder and encoder. -/

open Sys2Proof Sys2Proof.Machine

/-! ### Request encoding (spec/30_encoding.md) -/

/-- Words of spec/95_test_vectors.md (V1 to V5, V9 to V11, V16, V21 to V23), written out there from R44 and R45, decode as it says. -/
def Obligations.DecodeSpecWords : Prop :=
  ∀ len : Word,
    decode 0x01000000#32 len = .ok (.byte 0x00#8 0x00#8) ∧
    decode 0x01001234#32 len = .ok (.byte 0x12#8 0x34#8) ∧
    decode 0x01003412#32 len = .ok (.byte 0x34#8 0x12#8) ∧
    decode 0x0100FFFF#32 len = .ok (.byte 0xFF#8 0xFF#8) ∧
    decode 0x0100AA55#32 len = .ok (.byte 0xAA#8 0x55#8) ∧
    decode 0x0200AA00#32 len = .ok (.buf 0xAA#8 len) ∧
    decode 0x00000000#32 len = .error (.illegalOperation 0x00000000#32) ∧
    decode 0x01010000#32 len = .error (.illegalOperation 0x01010000#32) ∧
    decode 0x81000000#32 len = .error (.illegalOperation 0x81000000#32) ∧
    decode 0x020000FF#32 len = .error (.illegalOperation 0x020000FF#32) ∧
    decode 0x02FF0000#32 len = .error (.illegalOperation 0x02FF0000#32) ∧
    decode 0x03000000#32 len = .error (.illegalOperation 0x03000000#32)

/-- R49: which operation each of the 256 values of `OPC = CMD[31:24]` selects. -/
def Obligations.OpcSelectsOperation : Prop :=
  ∀ cmd len : Word,
    (cmd.extractLsb' 24 8 = 0x01#8 → ∀ i, decode cmd len = .ok i → ∃ crc data, i = .byte crc data) ∧
    (cmd.extractLsb' 24 8 = 0x02#8 → ∀ i, decode cmd len = .ok i → ∃ crc, i = .buf crc len) ∧
    (cmd.extractLsb' 24 8 ≠ 0x01#8 → cmd.extractLsb' 24 8 ≠ 0x02#8 → ∀ i, decode cmd len ≠ .ok i)

/-- R44, R45: the match and mask of each format, and where the operand fields stand in it. -/
def Obligations.DecodeMatchesFormats : Prop :=
  ∀ cmd len : Word,
    ((cmd &&& 0xFFFF0000#32 = 0x01000000#32) ↔
      decode cmd len = .ok (.byte (cmd.extractLsb' 8 8) (cmd.extractLsb' 0 8))) ∧
    ((cmd &&& 0xFFFF00FF#32 = 0x02000000#32) ↔ decode cmd len = .ok (.buf (cmd.extractLsb' 8 8) len))

/-- R50: the decode function, case by case as its pseudocode has them, and how many words decode to each operation. -/
def Obligations.DecodeIsThePseudocode : Prop :=
  (∀ cmd len : Word,
    (cmd.extractLsb' 24 8 = 0x01#8 ∧ cmd.extractLsb' 16 8 = 0x00#8 →
      decode cmd len = .ok (.byte (cmd.extractLsb' 8 8) (cmd.extractLsb' 0 8))) ∧
    (cmd.extractLsb' 24 8 = 0x02#8 ∧ cmd.extractLsb' 16 8 = 0x00#8 ∧ cmd.extractLsb' 0 8 = 0x00#8 →
      decode cmd len = .ok (.buf (cmd.extractLsb' 8 8) len)) ∧
    (¬ (cmd.extractLsb' 24 8 = 0x01#8 ∧ cmd.extractLsb' 16 8 = 0x00#8) →
      ¬ (cmd.extractLsb' 24 8 = 0x02#8 ∧ cmd.extractLsb' 16 8 = 0x00#8 ∧ cmd.extractLsb' 0 8 = 0x00#8) →
      decode cmd len = .error (.illegalOperation cmd))) ∧
  Nat.card {cmd : Word // ∃ len crc data, decode cmd len = .ok (.byte crc data)} = 65536 ∧
  Nat.card {cmd : Word // ∃ len crc, decode cmd len = .ok (.buf crc len)} = 256

/-- R46, R47, R48: each operand is its field, or the whole `LEN` word, unchanged, and every value decodes. Every value of CRC and DATA is
legal; a `LEN` is legal from 0 to `AVAIL`, where the request gets a result, and a fault above it. -/
def Obligations.OperandsAreTheirFields : Prop :=
  (∀ cmd len crc data, decode cmd len = .ok (.byte crc data) →
    crc = cmd.extractLsb' 8 8 ∧ data = cmd.extractLsb' 0 8) ∧
  (∀ cmd len crc n, decode cmd len = .ok (.buf crc n) → crc = cmd.extractLsb' 8 8 ∧ n = len) ∧
  (∀ (crc data : Byte) (len : Word),
    (∃ cmd, decode cmd len = .ok (.byte crc data)) ∧ (∃ cmd, decode cmd len = .ok (.buf crc len))) ∧
  (∀ (s : State) (q : Issued) (rest : List Issued) (crc : Byte) (len : Word), s.pending = q :: rest →
    decode q.request.cmd q.request.len = .ok (.buf crc len) →
    (len.toNat ≤ q.request.buf.length → ∃ t v, step s = .next t ∧ t.faultRecord = s.faultRecord ∧
      t.delivered = s.delivered ++ [⟨q.caller, encodeResp (.ok v)⟩]) ∧
    (q.request.buf.length < len.toNat → ∃ t, step s = .next t ∧
      t.delivered = s.delivered ++ [⟨q.caller, encodeResp (.fault .bufferOverrun)⟩]))

/-- R51, R52: exactly the words R52 lists are illegal, the all-zero word among them, and each is answered by `IllegalOperation(CMD)`: a
word with a reserved bit set is never the operation its OPC names. -/
def Obligations.IllegalWordsExactly : Prop :=
  (∀ cmd len : Word, decode cmd len = .error (.illegalOperation cmd) ↔
    (cmd.extractLsb' 24 8 ≠ 0x01#8 ∧ cmd.extractLsb' 24 8 ≠ 0x02#8) ∨
    (cmd.extractLsb' 24 8 = 0x01#8 ∧ cmd.extractLsb' 16 8 ≠ 0x00#8) ∨
    (cmd.extractLsb' 24 8 = 0x02#8 ∧ (cmd.extractLsb' 16 8 ≠ 0x00#8 ∨ cmd.extractLsb' 0 8 ≠ 0x00#8))) ∧
  (∀ cmd len e, decode cmd len = .error e → e = .illegalOperation cmd) ∧
  (∀ len, decode 0x00000000#32 len = .error (.illegalOperation 0x00000000#32))

/-- R58: the encoder, and that it and the decoder undo each other, both ways. -/
def Obligations.EncodeAndDecodeAgree : Prop :=
  (∀ crc data : Byte, encodeCmd (.byte crc data) = 0x01000000#32 ||| (crc.setWidth 32 <<< 8) ||| data.setWidth 32) ∧
  (∀ (crc : Byte) (len : Word), encodeCmd (.buf crc len) = 0x02000000#32 ||| (crc.setWidth 32 <<< 8)) ∧
  (∀ cmd len i, decode cmd len = .ok i → encodeCmd i = cmd) ∧
  (∀ (crc data : Byte) (len : Word), decode (encodeCmd (.byte crc data)) len = .ok (.byte crc data)) ∧
  (∀ (crc : Byte) (len : Word), decode (encodeCmd (.buf crc len)) len = .ok (.buf crc len))

/-- R43, R54: a `LEN` word follows the command word exactly when it decodes to `CRC8.BUF`, and is taken only then. -/
def Obligations.LenWordFollowsExactlyForBuf : Prop :=
  (∀ cmd len i, decode cmd len = .ok i → (encode i = [cmd] ∨ encode i = [cmd, len])) ∧
  (∀ i, (encode i).length = 2 ↔ ∃ crc len, i = .buf crc len) ∧
  (∀ cmd len len', (∀ crc n, decode cmd len ≠ .ok (.buf crc n)) → decode cmd len' = decode cmd len)

/-- R55: the command word of each line of the spec's own syntax, as the concatenation it gives. -/
def Obligations.EncoderIsTheConcatenation : Prop :=
  (∀ crc data : Byte, encodeCmd (.byte crc data) = 0x01#8 ++ 0x00#8 ++ crc ++ data) ∧
  (∀ (crc : Byte) (len : Word), encodeCmd (.buf crc len) = 0x02#8 ++ 0x00#8 ++ crc ++ 0x00#8)

/-! ### Response encoding (spec/30_encoding.md R57, spec/60_exceptions.md R76) -/

/-- R57: each request in progress yields one response word, of a result or of a fault, and this is every bit of it. -/
def Obligations.ResponseWordLayout : Prop :=
  (∀ (s : State) (q : Issued) (rest : List Issued), s.pending = q :: rest →
    ∃ t r, step s = .next t ∧ t.delivered = s.delivered ++ [⟨q.caller, encodeResp r⟩]) ∧
  (∀ crc : Byte,
    (encodeResp (.ok crc)).getLsbD 31 = false ∧ (encodeResp (.ok crc)).extractLsb' 8 23 = 0#23 ∧
    (encodeResp (.ok crc)).extractLsb' 0 8 = crc) ∧
  (∀ code : FaultCode,
    (encodeResp (.fault code)).getLsbD 31 = true ∧ (encodeResp (.fault code)).extractLsb' 16 15 = 0#15 ∧
    (encodeResp (.fault code)).extractLsb' 8 8 = faultCodeByte code ∧ (encodeResp (.fault code)).extractLsb' 0 8 = 0x00#8) ∧
  (∀ crc : Byte, resultByte? (encodeResp (.ok crc)) = some crc) ∧
  (∀ code, resultByte? (encodeResp (.fault code)) = none)

/-- A response word reads back as the response it was made from, and a word that reads as a response is that response's word: a caller
cannot confuse two responses, and a word with a reserved bit set or with a code R76 excludes is no response (I8). -/
def Obligations.ResponseWordsRoundTrip : Prop :=
  (∀ r : Response, decodeResp (encodeResp r) = some r) ∧
  (∀ (w : Word) (r : Response), decodeResp w = some r → encodeResp r = w)

/-- R76: the two codes, and that every response word a step adds to those delivered is a result or has one of them. -/
def Obligations.FaultCodesProduced : Prop :=
  faultCodeByte .illegalOperation = 0x01#8 ∧ faultCodeByte .bufferOverrun = 0x02#8 ∧
  ∀ s t, step s = .next t → ∃ new, t.delivered = s.delivered ++ new ∧
    ∀ d ∈ new, d.resp.getLsbD 31 = false ∨ d.resp.extractLsb' 8 8 = 0x01#8 ∨ d.resp.extractLsb' 8 8 = 0x02#8

/-! ### CRC8.BYTE (spec/40_crc8_update.md R60, R61) -/

/-- R60: `CRC8.BYTE` always runs and answers `ok(T[crc XOR data])` to the caller of the request in progress; it changes nothing else. The
same of the request whose command word is the format-B word with those fields. -/
def Obligations.ByteAnswersTheTableEntry : Prop :=
  ∀ (s : State) (q : Issued) (rest : List Issued) (crc data : Byte), s.pending = q :: rest →
    exec (.byte crc data) s = .next { s with
      pending := rest
      delivered := s.delivered ++
        [⟨q.caller, (s.table.entries[(crc ^^^ data).toNat]'(crc ^^^ data).isLt).setWidth 32⟩] } ∧
    (q.request.cmd = 0x01000000#32 ||| (crc.setWidth 32 <<< 8) ||| data.setWidth 32 →
      step s = exec (.byte crc data) s)

/-- R61: the laws of `CRC8.BYTE`, each of the response to a request, for every table. -/
def Obligations.ByteLaws : Prop :=
  ∀ (T : Table) (c d k : Byte),
    answerAlone T (byteRequest c d) = answerAlone T (byteRequest d c) ∧
    answerAlone T (byteRequest c c) = some 0x00000000#32 ∧
    answerAlone T (byteRequest 0x00#8 d) = some ((tableRead T d).setWidth 32) ∧
    answerAlone T (byteRequest c 0x00#8) = some ((tableRead T c).setWidth 32) ∧
    answerAlone T (byteRequest c d) = answerAlone T (byteRequest (c ^^^ k) (d ^^^ k)) ∧
    answerAlone T (byteRequest c d) = some ((tableRead T (d ^^^ c)).setWidth 32)

/-! ### CRC8.BUF (spec/40_crc8_update.md R62 to R67) -/

/-- `CRC8.BUF` within its bound always runs: it answers the fold (R12, R62) of the first `LEN` bytes of the buffer port to the caller of
the request in progress, and changes nothing else. -/
def Obligations.BufAnswersTheFold : Prop :=
  ∀ (s : State) (q : Issued) (rest : List Issued) (crc : Byte) (len : Word), s.pending = q :: rest →
    len.toNat ≤ q.request.buf.length →
    exec (.buf crc len) s = .next { s with
      pending := rest
      delivered := s.delivered ++ [⟨q.caller, ((q.request.buf.take len.toNat).foldl
        (fun acc b => s.table.entries[(acc ^^^ b).toNat]'(acc ^^^ b).isLt) crc).setWidth 32⟩] }

/-- R62, R75: the request whose command word is the format-L word, served as its pseudocode says. Beyond the bound it takes `BufferOverrun`.
Within it there are accumulators `acc 0 = crc`, `acc (i+1) = T[acc i XOR BUF[i]]`, and the response is `ok(acc LEN)`. -/
def Obligations.BufFollowsThePseudocode : Prop :=
  ∀ (s : State) (q : Issued) (rest : List Issued) (crc : Byte), s.pending = q :: rest →
    q.request.cmd = 0x02000000#32 ||| (crc.setWidth 32 <<< 8) →
    (q.request.buf.length < q.request.len.toNat →
      step s = .next { s with
        pending := rest
        delivered := s.delivered ++ [⟨q.caller, 0x80000200#32⟩]
        faultRecord := s.faultRecord ++ [⟨q.caller, .bufferOverrun q.request.cmd q.request.len q.request.buf.length⟩] }) ∧
    (q.request.len.toNat ≤ q.request.buf.length → ∃ acc : Nat → Byte, acc 0 = crc ∧
      (∀ (i : Nat) (h : i < q.request.buf.length), i < q.request.len.toNat →
        acc (i + 1) = s.table.entries[(acc i ^^^ q.request.buf[i]).toNat]'(acc i ^^^ q.request.buf[i]).isLt) ∧
      step s = .next { s with
        pending := rest
        delivered := s.delivered ++ [⟨q.caller, (acc q.request.len.toNat).setWidth 32⟩] })

/-- From R75: `CRC8.BUF` with `LEN > AVAIL` takes `BufferOverrun`: the response `fault(0x02)`, whatever the bytes, the table and `crc` are,
and an entry of the fault record with `CMD`, `LEN` and `AVAIL`. It is of `exec` on every request, so the `CMD` is the word of the request in
progress, which is the model's own where that word is not this operation's (log entry 16, DEDUCED); in a step it is. -/
def Obligations.BufOverrunTaken : Prop :=
  ∀ (s : State) (q : Issued) (rest : List Issued) (crc : Byte) (len : Word), s.pending = q :: rest →
    q.request.buf.length < len.toNat →
    exec (.buf crc len) s = .next { s with
      pending := rest
      delivered := s.delivered ++ [⟨q.caller, 0x80000200#32⟩]
      faultRecord := s.faultRecord ++ [⟨q.caller, .bufferOverrun q.request.cmd len q.request.buf.length⟩] }

/-- R65: with `LEN = 0` the response is `ok(crc)`, for every table and every buffer port, an empty one too. -/
def Obligations.BufOfZeroLength : Prop :=
  ∀ (T : Table) (crc : Byte) (buf : List Byte),
    answerAlone T (bufRequest crc 0#32 buf) = some (crc.setWidth 32)

/-- A corner case of R62: with `LEN = 1` the response is that of `CRC8.BYTE` on the first byte, whatever follows it. -/
def Obligations.BufOfOneByte : Prop :=
  ∀ (T : Table) (crc b : Byte) (more : List Byte),
    answerAlone T (bufRequest crc 1#32 (b :: more)) = answerAlone T (byteRequest crc b)

/-- From R63, the chaining law, from any state of the run: `n` `CRC8.BYTE` requests in order with the accumulator threaded end with the byte
that one `CRC8.BUF` request over the same bytes answers. `byteLoop` and `call` are the model's caller, without the bound `MAX_AVAIL`, which
presents its request behind whatever else waits and takes the last response delivered as its own (log entry 19, DESIGN CHOICE). -/
def Obligations.ByteLoopEqualsBuf : Prop :=
  ∀ (s : State) (caller : Nat) (crc0 : Byte) (bytes : List Byte), bytes.length < 2 ^ 32 →
    ∃ (crc : Byte) (t t' : State), byteLoop caller crc0 bytes s = some (crc, t) ∧
      call caller (bufRequest crc0 (BitVec.ofNat 32 bytes.length) bytes) s = some (crc.setWidth 32, t')

/-- R64, split invariance: the response over `n` bytes is that over the last `n - k`, from the response over the first `k`. -/
def Obligations.BufSplitInvariance : Prop :=
  ∀ (T : Table) (crc0 : Byte) (buf : List Byte) (k n : Word), k ≤ n → n.toNat ≤ buf.length →
    ∃ crc crc' : Byte, answerAlone T (bufRequest crc0 k buf) = some (crc.setWidth 32) ∧
      answerAlone T (bufRequest crc (n - k) (buf.drop k.toNat)) = some (crc'.setWidth 32) ∧
      answerAlone T (bufRequest crc0 n buf) = some (crc'.setWidth 32)

/-- The verify-on-receive check (spec/95_test_vectors.md V26, from R61 and R63): a message followed by its own checksum answers `ok(0x00)`,
for every table and every seed. -/
def Obligations.VerifyOnReceive : Prop :=
  ∀ (T : Table) (c : Byte) (m : List Byte), m.length + 1 < 2 ^ 32 →
    ∃ r : Byte, answerAlone T (bufRequest c (BitVec.ofNat 32 m.length) m) = some (r.setWidth 32) ∧
      answerAlone T (bufRequest c (BitVec.ofNat 32 (m.length + 1)) (m ++ [r])) = some 0x00000000#32

/-- R34: the response of a `CRC8.BUF` request is the same for two buffer ports that agree on `BUF[0]` to `BUF[LEN - 1]`: a byte at index
`LEN` or above has no part in it. -/
def Obligations.BufReadsOnlyLenBytes : Prop :=
  ∀ (T : Table) (crc : Byte) (len : Word) (buf buf' : List Byte),
    len.toNat ≤ buf.length → len.toNat ≤ buf'.length →
    (∀ i, i < len.toNat → bufRead buf i = bufRead buf' i) →
    answerAlone T (bufRequest crc len buf) = answerAlone T (bufRequest crc len buf')

/-- R67 (with the internal state of R24): `LEN` hidden byte steps from `acc = crc`, index 0, are possible, end at index `LEN`, and the one
transition of `CRC8.BUF` answers the accumulator they end with. -/
def Obligations.BufHiddenStepsAgree : Prop :=
  ∀ (s : State) (q : Issued) (rest : List Issued) (crc : Byte) (len : Word), s.pending = q :: rest →
    len.toNat ≤ q.request.buf.length →
    ∃ f : FoldState, foldSteps s.table q.request.buf len.toNat (foldStart crc) = some f ∧ f.index = len ∧
      exec (.buf crc len) s = .next { s with
        pending := rest
        delivered := s.delivered ++ [⟨q.caller, f.acc.setWidth 32⟩] }

/-- R66: a faulting `CRC8.BUF` answers `fault(0x02)` only: the word holds no result byte and is the same whatever the table, the accumulator
and the bytes are. -/
def Obligations.NoPartialResult : Prop :=
  (∀ (T : Table) (crc : Byte) (len : Word) (buf : List Byte), buf.length < len.toNat →
    answerAlone T (bufRequest crc len buf) = some 0x80000200#32) ∧
  resultByte? 0x80000200#32 = none

/-- R12: the fold. -/
def Obligations.FoldIsTheLeftFold : Prop :=
  ∀ (T : Table) (c b : Byte) (bs : List Byte),
    updateAll T c [] = c ∧ updateAll T c (b :: bs) = updateAll T (tableRead T (c ^^^ b)) bs

/-- The frame of both operations (R59, R28): the table and every byte read from it, the other requests with their buffer ports and the
responses already delivered stay; one response is added for the request in progress; the fault record stays, but for a `CRC8.BUF`
beyond its bound, which adds one entry (R75). That without a request nothing is delivered or recorded is the model's choice (log entry 10,
DESIGN CHOICE), and that the `CMD` of the entry is the word of the request in progress is DEDUCED for `exec` alone (log entry 16). -/
def Obligations.ExecFrame : Prop :=
  ∀ (i : Instr) (s t : State), exec i s = .next t →
    t.table = s.table ∧ (∀ idx, tableRead t.table idx = tableRead s.table idx) ∧
    t.pending = s.pending.tail ∧
    (∃ new, t.delivered = s.delivered ++ new ∧ new.map (fun d => d.caller) = (s.pending.take 1).map (fun q => q.caller)) ∧
    (t.faultRecord = s.faultRecord ∨
      ∃ crc len q, i = .buf crc len ∧ s.pending.head? = some q ∧ q.request.buf.length < len.toNat ∧
        t.faultRecord = s.faultRecord ++ [⟨q.caller, .bufferOverrun q.request.cmd len q.request.buf.length⟩])

/-- R77: which operations fault, and that no fault depends on the accumulator, on data bytes or on table entries. -/
def Obligations.WhichOperationsFault : Prop :=
  (∀ (s : State) (q : Issued) (rest : List Issued) (crc data : Byte), s.pending = q :: rest →
    decode q.request.cmd q.request.len = .ok (.byte crc data) →
    ∃ t, step s = .next t ∧ t.faultRecord = s.faultRecord ∧
      t.delivered = s.delivered ++ [⟨q.caller, (tableRead s.table (crc ^^^ data)).setWidth 32⟩]) ∧
  (∀ (s t : State) (crc : Byte) (len : Word), exec (.buf crc len) s = .next t → t.faultRecord = s.faultRecord ∨
    ∃ c cmd n a, t.faultRecord = s.faultRecord ++ [⟨c, .bufferOverrun cmd n a⟩]) ∧
  (∀ (s s' t t' : State) (q q' : Issued) (rest rest' : List Issued) (crc crc' : Byte) (len : Word),
    s.pending = q :: rest → s'.pending = q' :: rest' → q.request.buf.length = q'.request.buf.length →
    exec (.buf crc len) s = .next t → exec (.buf crc' len) s' = .next t' →
    (t.faultRecord = s.faultRecord ↔ t'.faultRecord = s'.faultRecord))

/-! ### The step and its faults (spec/60_exceptions.md) -/

/-- A step runs the decoded operation: with a request whose words decode to `i` in progress, the step is `exec i` (R43, R84). -/
def Obligations.StepRunsDecodedOperation : Prop :=
  ∀ (s : State) (q : Issued) (rest : List Issued) (i : Instr), s.pending = q :: rest →
    decode q.request.cmd q.request.len = .ok i → step s = exec i s

/-- R74: a command word that is no legal word takes `IllegalOperation`: the response `fault(0x01)` and an entry with `CMD`, whatever its
`LEN`, its buffer port and the table are. -/
def Obligations.IllegalWordTaken : Prop :=
  ∀ (s : State) (q : Issued) (rest : List Issued), s.pending = q :: rest →
    ((q.request.cmd.extractLsb' 24 8 ≠ 0x01#8 ∧ q.request.cmd.extractLsb' 24 8 ≠ 0x02#8) ∨
     (q.request.cmd.extractLsb' 24 8 = 0x01#8 ∧ q.request.cmd.extractLsb' 16 8 ≠ 0x00#8) ∨
     (q.request.cmd.extractLsb' 24 8 = 0x02#8 ∧
      (q.request.cmd.extractLsb' 16 8 ≠ 0x00#8 ∨ q.request.cmd.extractLsb' 0 8 ≠ 0x00#8))) →
    step s = .next { s with
      pending := rest
      delivered := s.delivered ++ [⟨q.caller, 0x80000100#32⟩]
      faultRecord := s.faultRecord ++ [⟨q.caller, .illegalOperation q.request.cmd⟩] }

/-- R78: a request raises at most one fault; a word that does not decode raises `IllegalOperation` and nothing else, even with a `LEN`
above `AVAIL`; `BufferOverrun` is raised only by a word that decodes to `CRC8.BUF`. -/
def Obligations.OneFaultDecodingFirst : Prop :=
  ∀ (s t : State) (q : Issued) (rest : List Issued), s.pending = q :: rest → step s = .next t →
    ((∃ e, decode q.request.cmd q.request.len = .error e) →
      t.faultRecord = s.faultRecord ++ [⟨q.caller, .illegalOperation q.request.cmd⟩]) ∧
    (t.faultRecord = s.faultRecord ∨ ∃ e, t.faultRecord = s.faultRecord ++ [e] ∧
      ∀ cmd len a, e.fault = .bufferOverrun cmd len a →
        ∃ crc, decode q.request.cmd q.request.len = .ok (.buf crc q.request.len))

/-- R73: a fault ends only the request that raised it: one entry is recorded and one response delivered, the fault response with that
entry's code and no result byte, to the caller that issued the request; the table and the other requests stay; and the next request is
served as from any state with the same table and the same requests, a state after a result among them. -/
def Obligations.FaultEndsOnlyItsRequest : Prop :=
  ∀ (s t : State) (q : Issued) (rest : List Issued), s.pending = q :: rest → step s = .next t →
    t.faultRecord ≠ s.faultRecord →
    t.table = s.table ∧ t.pending = rest ∧
    (∃ w f, t.faultRecord = s.faultRecord ++ [⟨q.caller, f⟩] ∧ t.delivered = s.delivered ++ [⟨q.caller, w⟩] ∧
      decodeResp w = some (.fault (faultCodeOf f)) ∧ resultByte? w = none) ∧
    ∀ t' u u' : State, t'.table = t.table → t'.pending = t.pending → step t = .next u → step t' = .next u' →
      u.table = u'.table ∧ u.pending = u'.pending ∧
      ∃ new added, u.delivered = t.delivered ++ new ∧ u'.delivered = t'.delivered ++ new ∧
        u.faultRecord = t.faultRecord ++ added ∧ u'.faultRecord = t'.faultRecord ++ added

/-- R81: any two faulting requests in a row, each an illegal word or an overrun, are two independent fault responses: each is answered and
recorded as its own words make it, under its own caller. -/
def Obligations.TwoFaultsAreIndependent : Prop :=
  ∀ (s : State) (p q : Issued) (rest : List Issued) (f g : Fault) (v w : Word), s.pending = p :: q :: rest →
    Raises p.request f v → Raises q.request g w →
    Host.Core.run Sys2Proof.core 2 s = .next { s with
      pending := rest
      delivered := s.delivered ++ [⟨p.caller, v⟩, ⟨q.caller, w⟩]
      faultRecord := s.faultRecord ++ [⟨p.caller, f⟩, ⟨q.caller, g⟩] }

/-- R82: over any number of steps no entry of the fault record is cleared; the record goes on holding every fault response; and a run whose
record is not empty has not succeeded. -/
def Obligations.FaultRecordNeverCleared : Prop :=
  (∀ (n : Nat) (s t : State), Host.Core.run Sys2Proof.core n s = .next t →
    s.faultRecord <+: t.faultRecord ∧
    (s.faultRecord.map faultReported = s.delivered.filterMap faultDelivered? →
      t.faultRecord.map faultReported = t.delivered.filterMap faultDelivered?)) ∧
  (∀ s : State, s.faultRecord ≠ [] → allSucceeded s = false)

/-! ### Reset, the table, the run (spec/70_reset_and_hazards.md, spec/10_state.md, spec/20_memory.md) -/

/-- R89, R26: after reset the table holds `CRC8_TABLE` with `T[0] = 0x00` (its other entries free, R6), no request is in progress, the fault
record is empty, and the engine is ready for the first request, whatever it is. -/
def Obligations.ResetLeaves : Prop :=
  State.reset.table = Config.crc8Table ∧ tableRead State.reset.table 0x00#8 = 0x00#8 ∧
  (∀ i : Byte, i ≠ 0x00#8 → tableRead State.reset.table i = Config.crc8Entry i) ∧
  inProgress State.reset = none ∧ State.reset.pending = [] ∧ State.reset.faultRecord = [] ∧
  (∀ (caller : Nat) (r : Request), ∃ t w, step (present caller r State.reset) = .next t ∧
    t.delivered = State.reset.delivered ++ [⟨caller, w⟩])

/-- R91: with no request the engine waits, for any number of steps; so it does after reset. That waiting changes nothing is DEDUCED (log
entry 6). -/
def Obligations.WaitsForARequest : Prop :=
  (∀ (s : State) (n : Nat), s.pending = [] → Host.Core.run Sys2Proof.core n s = .next s) ∧
  (∀ n : Nat, Host.Core.run Sys2Proof.core n State.reset = .next State.reset)

/-- R18: `T[0x00] = 0x00` of every table; a parameter that breaks it is refused; nothing else is asked of a parameter. -/
def Obligations.TableInvariant : Prop :=
  (∀ T : Table, tableRead T 0x00#8 = 0x00#8) ∧
  (∀ v : Vector Byte 256, v[0] ≠ 0x00#8 → tableWf v = false ∧ Table.ofEntries? v = none) ∧
  (∀ v : Vector Byte 256, v[0] = 0x00#8 → tableWf v = true ∧
    ∃ T, Table.ofEntries? v = some T ∧ ∀ i : Byte, tableRead T i = v[i.toNat]'i.isLt)

/-- R16, R17: no run of the engine and no caller's request writes the table, so a read of any index gives the same value ever after. -/
def Obligations.TableNeverWritten : Prop :=
  (∀ (n : Nat) (s t : State), Host.Core.run Sys2Proof.core n s = .next t →
    t.table = s.table ∧ ∀ i, tableRead t.table i = tableRead s.table i) ∧
  (∀ (caller : Nat) (r : Request) (s t : State), issue? caller r s = some t → t.table = s.table)

/-- R36, R43: each request is one transition that delivers exactly one response, to the caller that issued it, and takes the request from
those that wait; no step stops the engine. -/
def Obligations.StepAnswersOneRequest : Prop :=
  ∀ (s : State) (q : Issued) (rest : List Issued), s.pending = q :: rest →
    ∃ (t : State) (w : Word), step s = .next t ∧ t.pending = rest ∧ t.table = s.table ∧
      t.delivered = s.delivered ++ [⟨q.caller, w⟩] ∧ (decodeResp w).isSome

/-- R88, R99: every request ends. As many steps as requests wait leave none waiting, and each has got exactly one response, its own: the one
the engine gives to it alone. That the responses of different callers come in the order their requests wait is the model's choice (log
entry 2, DESIGN CHOICE): R88 gives no such order. -/
def Obligations.EveryRequestEnds : Prop :=
  ∀ s : State, ∃ t, serveAll s = .next t ∧ t.pending = [] ∧
    t.delivered.map (fun d => (d.caller, some d.resp)) =
      s.delivered.map (fun d => (d.caller, some d.resp)) ++
        s.pending.map (fun q => (q.caller, answerAlone s.table q.request))

/-- From R38: a response is a function of the request and of the table alone: one function from requests to words gives the responses of
every run with this table. So any two interleavings of the same requests deliver the same responses, each to the same caller. That a run
delivers in the order the requests wait, across callers, is the model's choice (log entry 2, DESIGN CHOICE). -/
def Obligations.InterleavingChangesNoResponse : Prop :=
  ∀ T : Table, ∃ answer : Request → Word,
    (∀ s : State, s.table = T → ∃ t, serveAll s = .next t ∧
      t.delivered = s.delivered ++ s.pending.map (fun q => ⟨q.caller, answer q.request⟩)) ∧
    (∀ s s' : State, s.table = T → s'.table = T → s.pending.Perm s'.pending →
      ∃ t t' new new', serveAll s = .next t ∧ serveAll s' = .next t' ∧
        t.delivered = s.delivered ++ new ∧ t'.delivered = s'.delivered ++ new' ∧ new.Perm new')

/-- R85: callers are isolated. What a caller gets from a run depends on the table and on its own requests alone: two runs that agree on
those give it the same responses, whatever other callers issued, in whatever order among its own. -/
def Obligations.CallersAreIsolated : Prop :=
  ∀ (s s' : State) (caller : Nat), s.table = s'.table → requestsOf caller s = requestsOf caller s' →
    ∃ t t' new, serveAll s = .next t ∧ serveAll s' = .next t' ∧
      deliveriesTo caller t = deliveriesTo caller s ++ new ∧ deliveriesTo caller t' = deliveriesTo caller s' ++ new

/-- From R88: where the invariant holds, a caller's run has succeeded exactly when none of its requests waits and every response word it got
has bit 31 clear, whatever the other callers' requests and responses are (that the record of its run is its own entries is log entry 20).
A caller with an entry in the record has not succeeded. The runs of all callers together have succeeded exactly when each caller's has. -/
def Obligations.SuccessMeansNoFaultResponse : Prop :=
  (∀ (s : State) (caller : Nat), Inv s →
    (succeeded caller s = true ↔ requestsOf caller s = [] ∧ ∀ d ∈ deliveriesTo caller s, d.resp.getLsbD 31 = false)) ∧
  (∀ s : State, ∀ e ∈ s.faultRecord, succeeded e.caller s = false) ∧
  (∀ s : State, Inv s →
    (allSucceeded s = true ↔ s.pending = [] ∧ ∀ d ∈ s.delivered, d.resp.getLsbD 31 = false)) ∧
  (∀ s : State, allSucceeded s = true ↔ ∀ caller, succeeded caller s = true)

/-- From R88: the end of a caller's run. It has ended exactly when it has no request that waits; serving all that waits ends it; and the run
so ended has succeeded exactly when it had no fault before and the engine answers each of its requests, taken alone, with a result
(that the record of its run is its own entries is log entry 20). -/
def Obligations.CallersRunEnds : Prop :=
  ∀ (s : State) (caller : Nat),
    (ended caller s = true ↔ ∀ q ∈ s.pending, q.caller ≠ caller) ∧
    ∃ t, serveAll s = .next t ∧ ended caller t = true ∧
      (succeeded caller t = true ↔ (∀ d ∈ deliveriesTo caller s, (resultByte? d.resp).isSome) ∧ faultsOf caller s = [] ∧
        ∀ q ∈ requestsOf caller s, ∃ crc, answerAlone s.table q.request = some (encodeResp (.ok crc)))

/-- From R88: the last byte a caller observes of a checksum computation of one byte or more is the final checksum: the accumulator the byte
loop ends with, whatever else waits and whatever was delivered before. `byteLoop` is the model's caller (log entry 19). -/
def Obligations.LastObservedByteIsTheChecksum : Prop :=
  ∀ (s : State) (caller : Nat) (crc0 : Byte) (bytes : List Byte), bytes ≠ [] →
    ∃ crc t, byteLoop caller crc0 bytes s = some (crc, t) ∧ ended caller t = true ∧ finalChecksum caller t = some crc

/-- R88: what a caller observes of a run, its result bytes in issue order: one for each of its requests that the engine answers, taken
alone, with a result, and none for one it answers with a fault. -/
def Obligations.ObservationInIssueOrder : Prop :=
  ∀ (s : State) (caller : Nat), ∃ t, serveAll s = .next t ∧
    observation caller t = observation caller s ++
      (requestsOf caller s).filterMap fun q => (answerAlone s.table q.request).bind resultByte?

/-- The invariant of a run holds after reset (R89: no request in progress, an empty fault record; R82). That no response has been delivered
yet, so that none is illegal and none reports a fault, is the model's own (log entry 18, DEDUCED). -/
def Obligations.ResetMeetsInvariant : Prop := Inv State.reset

/-- Every step keeps the invariant of a run, from every state that meets it (R8, R57, R74, R75, R76, R82). That the bound of R8 is asked of
the port of every request, whatever its command word, is the model's choice (log entry 8, DESIGN CHOICE). -/
def Obligations.StepKeepsInvariant : Prop :=
  ∀ s t : State, Inv s → step s = .next t → Inv t

/-- A caller that presents a request keeps the invariant of a run; it is turned away exactly when the buffer port would hold more than
`MAX_AVAIL` bytes (R8), and otherwise its request waits behind the others. What happens beyond the bound is the model's choice (log entry 8),
so is that the bound is asked of every request, where R8 bounds the port of a `CRC8.BUF` request (log entry 8), and so
is that the request joins as the LAST of those that wait (log entry 2). -/
def Obligations.IssueKeepsInvariant : Prop :=
  ∀ (s : State) (caller : Nat) (r : Request),
    (issue? caller r s = none ↔ Config.maxAvail < r.buf.length) ∧
    (∀ t, issue? caller r s = some t → t = { s with pending := s.pending ++ [⟨caller, r⟩] } ∧ (Inv s → Inv t))

/-- The request that `withFetchWord` presents is served by the very next step (the model's stand-in for a load, log entry 11). -/
def Obligations.FetchWordIsServedNext : Prop :=
  ∀ (s : State) (nbits w : Nat) (i : Instr), decodeTableWord nbits w = some i →
    step (s.withFetchWord nbits w) = exec i (s.withFetchWord nbits w)

/-- With no request in progress there is nobody to answer: either operation leaves the state as it is (the model's choice, log entry 10; no
step runs an operation there). -/
def Obligations.NothingToAnswer : Prop :=
  ∀ (i : Instr) (s : State), s.pending = [] → exec i s = .next s
end

