-- ==== Sys2Proof/Laws/Decode.lean ====
section
/-! SUPPORT. The fields of an encoded command word, the word that fields make up, and the three things decoding can answer. -/

namespace Sys2Proof

theorem fieldOpc_encode_byte (c d : Byte) : fieldOpc (encodeCmd (.byte c d)) = opcByte := by
  apply BitVec.eq_of_getElem_eq
  intro i hi
  simp only [fieldOpc, encodeCmd, opcByte]
  interval_cases i <;> simp

theorem fieldRsv0_encode_byte (c d : Byte) : fieldRsv0 (encodeCmd (.byte c d)) = 0x00#8 := by
  apply BitVec.eq_of_getElem_eq
  intro i hi
  simp only [fieldRsv0, encodeCmd]
  interval_cases i <;> simp

theorem fieldCrc_encode_byte (c d : Byte) : fieldCrc (encodeCmd (.byte c d)) = c := by
  apply BitVec.eq_of_getElem_eq
  intro i hi
  simp only [fieldCrc, encodeCmd]
  interval_cases i <;> simp

theorem fieldData_encode_byte (c d : Byte) : fieldData (encodeCmd (.byte c d)) = d := by
  apply BitVec.eq_of_getElem_eq
  intro i hi
  simp only [fieldData, encodeCmd]
  interval_cases i <;> simp

theorem fieldOpc_encode_buf (c : Byte) (n : Word) : fieldOpc (encodeCmd (.buf c n)) = opcBuf := by
  apply BitVec.eq_of_getElem_eq
  intro i hi
  simp only [fieldOpc, encodeCmd, opcBuf]
  interval_cases i <;> simp

theorem fieldRsv0_encode_buf (c : Byte) (n : Word) : fieldRsv0 (encodeCmd (.buf c n)) = 0x00#8 := by
  apply BitVec.eq_of_getElem_eq
  intro i hi
  simp only [fieldRsv0, encodeCmd]
  interval_cases i <;> simp

theorem fieldCrc_encode_buf (c : Byte) (n : Word) : fieldCrc (encodeCmd (.buf c n)) = c := by
  apply BitVec.eq_of_getElem_eq
  intro i hi
  simp only [fieldCrc, encodeCmd]
  interval_cases i <;> simp

theorem fieldRsv1_encode_buf (c : Byte) (n : Word) : fieldRsv1 (encodeCmd (.buf c n)) = 0x00#8 := by
  apply BitVec.eq_of_getElem_eq
  intro i hi
  simp only [fieldRsv1, encodeCmd]
  interval_cases i <;> simp

/-- A word is its four byte fields. -/
theorem word_eq_fields (w : Word) :
    w = (fieldOpc w).setWidth 32 <<< 24 ||| (fieldRsv0 w).setWidth 32 <<< 16 ||| (fieldCrc w).setWidth 32 <<< 8
      ||| (fieldData w).setWidth 32 := by
  apply BitVec.eq_of_getElem_eq
  intro i hi
  simp only [fieldOpc, fieldRsv0, fieldCrc, fieldData]
  interval_cases i <;> simp

/-- All that decoding can answer: the operation of either format, or the one error with the word itself. -/
theorem decode_cases (cmd len : Word) :
    (fieldOpc cmd = opcByte ∧ fieldRsv0 cmd = 0x00#8 ∧
      decode cmd len = .ok (.byte (fieldCrc cmd) (fieldData cmd))) ∨
    (fieldOpc cmd = opcBuf ∧ fieldRsv0 cmd = 0x00#8 ∧ fieldRsv1 cmd = 0x00#8 ∧
      decode cmd len = .ok (.buf (fieldCrc cmd) len)) ∨
    decode cmd len = .error (.illegalOperation cmd) := by
  unfold decode
  split
  · rename_i h; exact .inl ⟨h.1, h.2, rfl⟩
  · split
    · rename_i h; exact .inr (.inl ⟨h.1, h.2.1, h.2.2, rfl⟩)
    · exact .inr (.inr rfl)

/-- The `LEN` word has no part in whether a command word decodes (R43): the error is the same for every `LEN`. -/
theorem decode_error_any_len {cmd len : Word} {e : DecodeError} (h : decode cmd len = .error e) (len' : Word) :
    decode cmd len' = .error e := by
  unfold decode at h ⊢
  split at h
  · cases h
  · split at h
    · cases h
    · rename_i h1 h2
      rw [if_neg h1, if_neg h2]; exact h

end Sys2Proof
end

