-- ==== Sys2Proof/Laws/PerInstr.lean ====
section
/-! SUPPORT. The statement made per constructor of `Instr`: the opcode and reserved fields of its command word. -/

namespace Sys2Proof.Laws.EncodedFields

/-- The OPC that R49 gives the operation, RSV0 zero, the accumulator in CRC (spec/30_encoding.md R44, R45). -/
def Statement (i : Instr) : Prop :=
  fieldRsv0 (encodeCmd i) = 0x00#8 ∧
  match i with
  | .byte crc _ => fieldOpc (encodeCmd i) = 0x01#8 ∧ fieldCrc (encodeCmd i) = crc
  | .buf crc _ => fieldOpc (encodeCmd i) = 0x02#8 ∧ fieldCrc (encodeCmd i) = crc

theorem byte (crc data : Byte) : Statement (.byte crc data) :=
  ⟨fieldRsv0_encode_byte crc data, fieldOpc_encode_byte crc data, fieldCrc_encode_byte crc data⟩

theorem buf (crc : Byte) (len : Word) : Statement (.buf crc len) :=
  ⟨fieldRsv0_encode_buf crc len, fieldOpc_encode_buf crc len, fieldCrc_encode_buf crc len⟩

end Sys2Proof.Laws.EncodedFields
end

