-- ==== Sys2Proof/Laws/State.lean ====
section
/-! SUPPORT. What each update of the state leaves in each field, and for each shared operation one lemma that says all it can do. -/

namespace Sys2Proof.Machine

/-- All that delivering a response does with a request in progress. -/
theorem respond_of_pending {s : State} {q : Issued} {rest : List Issued} (h : s.pending = q :: rest) (r : Response) :
    respond r s = { s with pending := rest, delivered := s.delivered ++ [⟨q.caller, encodeResp r⟩] } := by
  simp [respond, h]

/-- Delivering a response with no request in progress changes nothing. -/
theorem respond_of_waiting {s : State} (h : s.pending = []) (r : Response) : respond r s = s := by
  simp [respond, h]

@[simp] theorem respond_table (r : Response) (s : State) : (respond r s).table = s.table := by
  unfold respond; split <;> rfl

@[simp] theorem respond_faultRecord (r : Response) (s : State) : (respond r s).faultRecord = s.faultRecord := by
  unfold respond; split <;> rfl

@[simp] theorem respond_pending (r : Response) (s : State) : (respond r s).pending = s.pending.tail := by
  unfold respond; split <;> simp_all

/-- All that taking a fault does with a request in progress (R73, R82). -/
theorem raise_of_pending {s : State} {q : Issued} {rest : List Issued} (h : s.pending = q :: rest) (f : Fault) :
    raise f s = { s with pending := rest,
                         delivered := s.delivered ++ [⟨q.caller, encodeResp (.fault (faultCodeOf f))⟩],
                         faultRecord := s.faultRecord ++ [⟨q.caller, f⟩] } := by
  simp [raise, respond, h]

/-- Taking a fault with no request in progress changes nothing. -/
theorem raise_of_waiting {s : State} (h : s.pending = []) (f : Fault) : raise f s = s := by
  simp [raise, h]

@[simp] theorem raise_table (f : Fault) (s : State) : (raise f s).table = s.table := by
  unfold raise; split <;> simp

@[simp] theorem raise_pending (f : Fault) (s : State) : (raise f s).pending = s.pending.tail := by
  unfold raise; split <;> simp_all

@[simp] theorem present_table (c : Nat) (r : Request) (s : State) : (present c r s).table = s.table := rfl
@[simp] theorem present_pending (c : Nat) (r : Request) (s : State) : (present c r s).pending = s.pending ++ [⟨c, r⟩] := rfl
@[simp] theorem present_delivered (c : Nat) (r : Request) (s : State) : (present c r s).delivered = s.delivered := rfl
@[simp] theorem present_faultRecord (c : Nat) (r : Request) (s : State) : (present c r s).faultRecord = s.faultRecord := rfl

@[simp] theorem withFetchWord_table (s : State) (n w : Nat) : (s.withFetchWord n w).table = s.table := rfl
@[simp] theorem withFetchWord_pending (s : State) (n w : Nat) : (s.withFetchWord n w).pending = ⟨0, requestOfTable n w⟩ :: s.pending := rfl
@[simp] theorem withFetchWord_delivered (s : State) (n w : Nat) : (s.withFetchWord n w).delivered = s.delivered := rfl
@[simp] theorem withFetchWord_faultRecord (s : State) (n w : Nat) : (s.withFetchWord n w).faultRecord = s.faultRecord := rfl

@[simp] theorem reset_table : State.reset.table = Config.crc8Table := rfl
@[simp] theorem reset_pending : State.reset.pending = [] := rfl
@[simp] theorem reset_delivered : State.reset.delivered = [] := rfl
@[simp] theorem reset_faultRecord : State.reset.faultRecord = [] := rfl

theorem bufferPort_of_pending {s : State} {q : Issued} {rest : List Issued} (h : s.pending = q :: rest) :
    bufferPort s = q.request.buf := by
  simp [bufferPort, h]

theorem commandInProgress_of_pending {s : State} {q : Issued} {rest : List Issued} (h : s.pending = q :: rest) :
    commandInProgress s = q.request.cmd := by
  simp [commandInProgress, h]

theorem decodeInProgress_of_pending {s : State} {q : Issued} {rest : List Issued} (h : s.pending = q :: rest) :
    decodeInProgress s = some (decode q.request.cmd q.request.len) := by
  simp [decodeInProgress, inProgress, h]

theorem decodeInProgress_of_waiting {s : State} (h : s.pending = []) : decodeInProgress s = none := by
  simp [decodeInProgress, inProgress, h]

end Sys2Proof.Machine
end

