-- ==== Sys2Proof/Laws/Step.lean ====
section
/-! SUPPORT. What one step of the engine can do, said once. -/

namespace Sys2Proof.Machine

/-- Each meaning as what it does with a request in progress. -/
theorem execByte_of_pending {s : State} {q : Issued} {rest : List Issued} (h : s.pending = q :: rest) (crc data : Byte) :
    execByte crc data s = .next { s with
      pending := rest,
      delivered := s.delivered ++ [⟨q.caller, encodeResp (.ok (update s.table crc data))⟩] } := by
  simp only [execByte, respond_of_pending h]

/-- `CRC8.BUF` within its bound, with a request in progress. -/
theorem execBuf_of_le {s : State} {q : Issued} {rest : List Issued} (h : s.pending = q :: rest) {len : Word}
    (hl : len.toNat ≤ q.request.buf.length) (crc : Byte) :
    execBuf crc len s = .next { s with
      pending := rest,
      delivered := s.delivered ++ [⟨q.caller, encodeResp (.ok (updateAll s.table crc (q.request.buf.take len.toNat)))⟩] } := by
  have : ¬ len.toNat > avail q.request.buf := by simpa [avail] using hl
  simp only [execBuf, bufferPort_of_pending h, if_neg this, respond_of_pending h, bufBytes]

/-- `CRC8.BUF` beyond its bound, with a request in progress. -/
theorem execBuf_of_gt {s : State} {q : Issued} {rest : List Issued} (h : s.pending = q :: rest) {len : Word}
    (hl : q.request.buf.length < len.toNat) (crc : Byte) :
    execBuf crc len s = .next { s with
      pending := rest,
      delivered := s.delivered ++ [⟨q.caller, encodeResp (.fault .bufferOverrun)⟩],
      faultRecord := s.faultRecord ++ [⟨q.caller, .bufferOverrun q.request.cmd len q.request.buf.length⟩] } := by
  have : len.toNat > q.request.buf.length := hl
  simp only [execBuf, avail, bufferPort_of_pending h, if_pos this, raise_of_pending h, commandInProgress_of_pending h, faultCodeOf]

/-- All that one step can do. -/
theorem step_cases (s : State) :
    (s.pending = [] ∧ step s = .next s) ∨
    (∃ q rest, s.pending = q :: rest ∧
      ((∃ e, decode q.request.cmd q.request.len = .error e ∧ step s = .next (raiseDecodeError e s)) ∨
       (∃ i, decode q.request.cmd q.request.len = .ok i ∧ step s = exec i s))) := by
  unfold step
  cases h : s.pending with
  | nil => left; simp [decodeInProgress_of_waiting h]
  | cons q rest =>
    right
    refine ⟨q, rest, rfl, ?_⟩
    rw [decodeInProgress_of_pending h]
    cases hd : decode q.request.cmd q.request.len with
    | error e => exact .inl ⟨e, rfl, rfl⟩
    | ok i => exact .inr ⟨i, rfl, rfl⟩

end Sys2Proof.Machine
end

