-- ==== Sys2Proof/Laws/Table.lean ====
section
/-! SUPPORT. The table and the fold: what a read gives, the fold one byte at a time and over two parts of a message. -/

namespace Sys2Proof.Machine

/-- R18 through the read: index 0 gives `0x00`, for every table. -/
theorem tableRead_zero (T : Table) : tableRead T 0x00#8 = 0x00#8 := T.zeroEntry

/-- Cancellation: equal operands give entry 0. -/
theorem update_self (T : Table) (c : Byte) : update T c c = 0x00#8 := by
  simp only [update, BitVec.xor_self]; exact tableRead_zero T

theorem updateAll_nil (T : Table) (c : Byte) : updateAll T c [] = c := rfl

theorem updateAll_cons (T : Table) (c b : Byte) (bs : List Byte) :
    updateAll T c (b :: bs) = updateAll T (update T c b) bs := rfl

theorem updateAll_append (T : Table) (c : Byte) (xs ys : List Byte) :
    updateAll T c (xs ++ ys) = updateAll T (updateAll T c xs) ys := List.foldl_append

/-- A table is what its well-formed entries build (R18). -/
theorem ofEntries?_eq_some {v : Vector Byte 256} {T : Table} (h : Table.ofEntries? v = some T) : T.entries = v := by
  unfold Table.ofEntries? at h
  split at h
  · cases h; rfl
  · cases h

end Sys2Proof.Machine
end

