-- ==== Sys2Proof/Machine/Flags.lean ====
section
/-! DEFINITION. The engine "has no flags, condition codes or predicates" (spec/10_state.md R22), and both operations write none
(spec/40_crc8_update.md R60, R62): there is no flag computation to define. What an operation reports beside its result byte is a fault
response, in Machine/Response.lean. -/
end

