-- ==== Sys2Proof/Tests/Slice0.lean ====
section
/-! SUPPORT. Tests with expected results from spec/95_test_vectors.md and spec/30_encoding.md, the smoke tests of the checks, and for each
statement with hypotheses a state and operands that meet them. -/

namespace Sys2Proof.Tests

open Sys2Proof Sys2Proof.Machine

/-! ### Tables and states -/

def candidateRow00 : List Byte :=
  [0x00, 0x07, 0x0E, 0x09, 0x1C, 0x1B, 0x12, 0x15, 0x38, 0x3F, 0x36, 0x31, 0x24, 0x23, 0x2A, 0x2D]

def candidateRow10 : List Byte :=
  [0x70, 0x77, 0x7E, 0x79, 0x6C, 0x6B, 0x62, 0x65, 0x48, 0x4F, 0x46, 0x41, 0x54, 0x53, 0x5A, 0x5D]

def candidateRow20 : List Byte :=
  [0xE0, 0xE7, 0xEE, 0xE9, 0xFC, 0xFB, 0xF2, 0xF5, 0xD8, 0xDF, 0xD6, 0xD1, 0xC4, 0xC3, 0xCA, 0xCD]

def candidateRow30 : List Byte :=
  [0x90, 0x97, 0x9E, 0x99, 0x8C, 0x8B, 0x82, 0x85, 0xA8, 0xAF, 0xA6, 0xA1, 0xB4, 0xB3, 0xBA, 0xBD]

def candidateRow40 : List Byte :=
  [0xC7, 0xC0, 0xC9, 0xCE, 0xDB, 0xDC, 0xD5, 0xD2, 0xFF, 0xF8, 0xF1, 0xF6, 0xE3, 0xE4, 0xED, 0xEA]

def candidateRow50 : List Byte :=
  [0xB7, 0xB0, 0xB9, 0xBE, 0xAB, 0xAC, 0xA5, 0xA2, 0x8F, 0x88, 0x81, 0x86, 0x93, 0x94, 0x9D, 0x9A]

def candidateRow60 : List Byte :=
  [0x27, 0x20, 0x29, 0x2E, 0x3B, 0x3C, 0x35, 0x32, 0x1F, 0x18, 0x11, 0x16, 0x03, 0x04, 0x0D, 0x0A]

def candidateRow70 : List Byte :=
  [0x57, 0x50, 0x59, 0x5E, 0x4B, 0x4C, 0x45, 0x42, 0x6F, 0x68, 0x61, 0x66, 0x73, 0x74, 0x7D, 0x7A]

def candidateRow80 : List Byte :=
  [0x89, 0x8E, 0x87, 0x80, 0x95, 0x92, 0x9B, 0x9C, 0xB1, 0xB6, 0xBF, 0xB8, 0xAD, 0xAA, 0xA3, 0xA4]

def candidateRow90 : List Byte :=
  [0xF9, 0xFE, 0xF7, 0xF0, 0xE5, 0xE2, 0xEB, 0xEC, 0xC1, 0xC6, 0xCF, 0xC8, 0xDD, 0xDA, 0xD3, 0xD4]

def candidateRowA0 : List Byte :=
  [0x69, 0x6E, 0x67, 0x60, 0x75, 0x72, 0x7B, 0x7C, 0x51, 0x56, 0x5F, 0x58, 0x4D, 0x4A, 0x43, 0x44]

def candidateRowB0 : List Byte :=
  [0x19, 0x1E, 0x17, 0x10, 0x05, 0x02, 0x0B, 0x0C, 0x21, 0x26, 0x2F, 0x28, 0x3D, 0x3A, 0x33, 0x34]

def candidateRowC0 : List Byte :=
  [0x4E, 0x49, 0x40, 0x47, 0x52, 0x55, 0x5C, 0x5B, 0x76, 0x71, 0x78, 0x7F, 0x6A, 0x6D, 0x64, 0x63]

def candidateRowD0 : List Byte :=
  [0x3E, 0x39, 0x30, 0x37, 0x22, 0x25, 0x2C, 0x2B, 0x06, 0x01, 0x08, 0x0F, 0x1A, 0x1D, 0x14, 0x13]

def candidateRowE0 : List Byte :=
  [0xAE, 0xA9, 0xA0, 0xA7, 0xB2, 0xB5, 0xBC, 0xBB, 0x96, 0x91, 0x98, 0x9F, 0x8A, 0x8D, 0x84, 0x83]

def candidateRowF0 : List Byte :=
  [0xDE, 0xD9, 0xD0, 0xD7, 0xC2, 0xC5, 0xCC, 0xCB, 0xE6, 0xE1, 0xE8, 0xEF, 0xFA, 0xFD, 0xF4, 0xF3]

/-- The candidate table of spec/93_implementation_defined.md G1, from general knowledge and not normative: a labelled instance (I3). -/
def candidate : Table where
  entries := ⟨(candidateRow00 ++ candidateRow10 ++ candidateRow20 ++ candidateRow30 ++
    candidateRow40 ++ candidateRow50 ++ candidateRow60 ++ candidateRow70 ++
    candidateRow80 ++ candidateRow90 ++ candidateRowA0 ++ candidateRowB0 ++
    candidateRowC0 ++ candidateRowD0 ++ candidateRowE0 ++ candidateRowF0).toArray, by simp only [List.size_toArray, List.length_append]; rfl⟩
  zeroEntry := rfl

/-- The table of zeros: the least table that R18 allows. -/
def zeros : Table where
  entries := Vector.replicate 256 0x00#8
  zeroEntry := by simp

/-- A run in which these requests wait, all of them of caller 0. -/
def waiting (T : Table) (rs : List Request) : State where
  table := T
  pending := rs.map fun r => ⟨0, r⟩
  delivered := []
  faultRecord := []

/-- The response words a step delivers to a run that had none. -/
def words (o : Host.Outcome State Fault Refusal) : List Word :=
  match o with
  | .next t => t.delivered.map fun d => d.resp
  | .fault _ => []
  | .refused _ => []

/-- The fault record after a step. -/
def record (o : Host.Outcome State Fault Refusal) : List FaultEntry :=
  match o with
  | .next t => t.faultRecord
  | .fault _ => []
  | .refused _ => []

/-! ### Decoding: words written out bit by bit from R44 and R45 -/

theorem test_decode_byte : decode 0b00000001_00000000_00010010_00110100#32 0 = .ok (.byte 0x12 0x34) := by decide

theorem test_decode_byte_fields_at_ends : decode 0b00000001_00000000_10000001_01111110#32 7 = .ok (.byte 0x81 0x7E) := by decide

theorem test_decode_buf : decode 0b00000010_00000000_10101011_00000000#32 5 = .ok (.buf 0xAB 5) := by decide

theorem test_decode_rsv0_set : decode 0b00000001_00000001_00000000_00000000#32 0 = .error (.illegalOperation 0x01010000) := by decide

theorem test_decode_rsv1_set : decode 0b00000010_00000000_00000000_00000001#32 0 = .error (.illegalOperation 0x02000001) := by decide

theorem test_decode_opc_without_operation : decode 0b00000011_00000000_00000000_00000000#32 0 = .error (.illegalOperation 0x03000000) := by decide

theorem test_encode_byte : encode (.byte 0x12 0x34) = [0x01001234] := by decide

theorem test_encode_buf : encode (.buf 0x5A 9) = [0x02005A00, 9] := by decide

theorem test_table_row_with_len : decodeTableWord 64 0x00000009_0200C200 = some (.buf 0xC2 9) := by decide

/-! ### The checks refuse what is ill formed -/

theorem test_table_ill_formed : tableWf (Vector.replicate 256 0x01#8) = false := by decide

theorem test_avail_ill_formed : availWf (Config.maxAvail + 1) = false := by simp [availWf]

theorem test_response_code_never_produced : decodeResp 0x80000300 = none := by decide

/-! ### One step (spec/95_test_vectors.md) -/

/-- V3 with W1. -/
theorem test_byte_reads_the_table : words (step (waiting candidate [⟨0x01001234, 0, []⟩])) = [0x000000F2] := by decide

/-- V5: cancellation. -/
theorem test_byte_cancels : words (step (waiting candidate [⟨0x0100FFFF, 0, []⟩])) = [0x00000000] := by decide

/-- V17 with W7: two bytes of five. -/
theorem test_buf_folds_len_bytes : words (step (waiting candidate [⟨0x02000000, 2, [1, 2, 3, 4, 5]⟩])) = [0x0000001B] := by decide

/-- V18: `LEN = AVAIL + 1`. -/
theorem test_buf_overrun :
    let o := step (waiting candidate [⟨0x0200AA00, 3, [0x55, 0x00]⟩])
    words o = [0x80000200] ∧ record o = [⟨0, .bufferOverrun 0x0200AA00 3 2⟩] := by decide

/-- V22: an illegal word with `LEN > AVAIL`. -/
theorem test_illegal_before_overrun :
    let o := step (waiting candidate [⟨0x02FF0000, 5, []⟩])
    words o = [0x80000100] ∧ record o = [⟨0, .illegalOperation 0x02FF0000⟩] := by decide

/-! ### Witnesses: for each statement with hypotheses, a state and operands that meet them, clause by clause -/

/-- A state in which one `CRC8.BYTE` request of the spec's worked example (R60) waits. -/
def byteWaits : State := waiting zeros [byteRequest 0x12 0x34]

/-- A state in which a `CRC8.BUF` request with `LEN = AVAIL = 2` waits (V16). -/
def bufWaits : State := waiting zeros [bufRequest 0xAA 2 [0x55, 0x00]]

/-- A state in which a `CRC8.BUF` request with `LEN = AVAIL + 1` waits (V18). -/
def overrunWaits : State := waiting zeros [bufRequest 0xAA 3 [0x55, 0x00]]

/-- A state in which the all-zero word (V1) and then an overrun wait. -/
def faultsWait : State := waiting zeros [⟨0x00000000, 0, []⟩, bufRequest 0xAA 3 [0x55, 0x00]]

theorem witness_OpcSelectsOperation :
    (BitVec.extractLsb' 24 8 0x01001234#32 = 0x01#8 ∧ decode 0x01001234 0 = .ok (.byte 0x12 0x34)) ∧
    (BitVec.extractLsb' 24 8 0x0200AA00#32 = 0x02#8 ∧ decode 0x0200AA00 2 = .ok (.buf 0xAA 2)) ∧
    (BitVec.extractLsb' 24 8 0x03000000#32 ≠ 0x01#8 ∧ BitVec.extractLsb' 24 8 0x03000000#32 ≠ 0x02#8) := by decide

theorem witness_DecodeIsThePseudocode :
    (BitVec.extractLsb' 24 8 0x0100FFFF#32 = 0x01#8 ∧ BitVec.extractLsb' 16 8 0x0100FFFF#32 = 0x00#8) ∧
    (BitVec.extractLsb' 24 8 0x0200FF00#32 = 0x02#8 ∧ BitVec.extractLsb' 16 8 0x0200FF00#32 = 0x00#8 ∧
      BitVec.extractLsb' 0 8 0x0200FF00#32 = 0x00#8) ∧
    (¬ (BitVec.extractLsb' 24 8 0x02000001#32 = 0x01#8 ∧ BitVec.extractLsb' 16 8 0x02000001#32 = 0x00#8) ∧
      ¬ (BitVec.extractLsb' 24 8 0x02000001#32 = 0x02#8 ∧ BitVec.extractLsb' 16 8 0x02000001#32 = 0x00#8 ∧
        BitVec.extractLsb' 0 8 0x02000001#32 = 0x00#8)) := by decide

/-- For `OperandsAreTheirFields`, `EncodeAndDecodeAgree` and `LenWordFollowsExactlyForBuf`. -/
theorem witness_decoded_words :
    decode 0x0100FF00 7 = .ok (.byte 0xFF 0x00) ∧ decode 0x0200FF00 0xFFFFFFFF = .ok (.buf 0xFF 0xFFFFFFFF) ∧
    decode 0x00000000 0 = .error (.illegalOperation 0x00000000) := by decide

/-- The clauses on `LEN`, at `AVAIL` and at `AVAIL + 1`. -/
theorem witness_OperandsAreTheirFields :
    (∃ q rest, bufWaits.pending = q :: rest ∧ decode q.request.cmd q.request.len = .ok (.buf 0xAA 2) ∧ (2 : Word).toNat = q.request.buf.length) ∧
    (∃ q rest, overrunWaits.pending = q :: rest ∧ decode q.request.cmd q.request.len = .ok (.buf 0xAA 3) ∧
      (3 : Word).toNat = q.request.buf.length + 1) :=
  ⟨⟨_, [], rfl, by decide, by decide⟩, ⟨_, [], rfl, by decide, by decide⟩⟩

theorem witness_LenWordFollowsExactlyForBuf : ∀ crc n, decode 0x01001234 7 ≠ .ok (.buf crc n) := by
  intro crc n h; cases h

theorem witness_ResponseWordsRoundTrip : decodeResp 0x80000200 = some (.fault .bufferOverrun) ∧ decodeResp 0x000000FF = some (.ok 0xFF) := by
  decide

/-- For every statement about a step: each case of a step has a state that takes it. -/
theorem witness_steps :
    (∃ t, step byteWaits = .next t) ∧ (∃ t, step bufWaits = .next t) ∧ (∃ t, step overrunWaits = .next t) ∧
    (∃ t, step faultsWait = .next t) := ⟨⟨_, rfl⟩, ⟨_, rfl⟩, ⟨_, rfl⟩, ⟨_, rfl⟩⟩

/-- Each of the three ways out: a result, code 0x01, code 0x02. -/
theorem witness_FaultCodesProduced :
    (words (step bufWaits)).map (fun w => w.getLsbD 31) = [false] ∧ words (step faultsWait) = [0x80000100] ∧
    words (step overrunWaits) = [0x80000200] := by decide

theorem witness_ByteAnswersTheTableEntry : ∃ q rest, byteWaits.pending = q :: rest ∧
    q.request.cmd = 0x01000000#32 ||| ((0x12#8).setWidth 32 <<< 8) ||| (0x34#8).setWidth 32 := ⟨_, [], rfl, by decide⟩

/-- For `BufAnswersTheFold` and `BufHiddenStepsAgree`, at the bound `LEN = AVAIL`. -/
theorem witness_BufAnswersTheFold : ∃ q rest, bufWaits.pending = q :: rest ∧ (2 : Word).toNat = q.request.buf.length :=
  ⟨_, [], rfl, by decide⟩

theorem witness_BufFollowsThePseudocode :
    (∃ q rest, overrunWaits.pending = q :: rest ∧ q.request.cmd = 0x02000000#32 ||| ((0xAA#8).setWidth 32 <<< 8) ∧
      q.request.len.toNat = q.request.buf.length + 1) ∧
    (∃ q rest, bufWaits.pending = q :: rest ∧ q.request.cmd = 0x02000000#32 ||| ((0xAA#8).setWidth 32 <<< 8) ∧
      q.request.len.toNat = q.request.buf.length) :=
  ⟨⟨_, [], rfl, by decide, by decide⟩, ⟨_, [], rfl, by decide, by decide⟩⟩

/-- At `LEN = AVAIL + 1`. -/
theorem witness_BufOverrunTaken : ∃ q rest, overrunWaits.pending = q :: rest ∧ (3 : Word).toNat = q.request.buf.length + 1 :=
  ⟨_, [], rfl, by decide⟩

/-- For `ByteLoopEqualsBuf` and `VerifyOnReceive`: the bytes of program P1. -/
theorem witness_ByteLoopEqualsBuf : ([0x31, 0x32, 0x33, 0x34, 0x35, 0x36, 0x37, 0x38, 0x39] : List Byte).length + 1 < 2 ^ 32 := by norm_num

/-- The split of program P2, and both ends of the range of `k`. -/
theorem witness_BufSplitInvariance : (4 : Word) ≤ 9 ∧ (0 : Word) ≤ 9 ∧ (9 : Word) ≤ 9 ∧
    (9 : Word).toNat ≤ ([0x31, 0x32, 0x33, 0x34, 0x35, 0x36, 0x37, 0x38, 0x39] : List Byte).length := by decide

theorem witness_BufReadsOnlyLenBytes : (2 : Word).toNat ≤ ([1, 2, 3] : List Byte).length ∧ (2 : Word).toNat ≤ ([1, 2] : List Byte).length ∧
    ∀ i, i < (2 : Word).toNat → bufRead [1, 2, 3] i = bufRead [1, 2] i := by decide

theorem witness_NoPartialResult : ([] : List Byte).length < (1 : Word).toNat := by decide

theorem witness_ExecFrame :
    (∃ t, exec (.byte 0x12 0x34) byteWaits = .next t ∧ t.faultRecord = []) ∧
    (∃ t, exec (.buf 0xAA 2) bufWaits = .next t ∧ t.faultRecord = []) ∧
    (∃ t, exec (.buf 0xAA 3) overrunWaits = .next t ∧ t.faultRecord = [⟨0, .bufferOverrun 0x0200AA00 3 2⟩]) :=
  ⟨⟨_, rfl, rfl⟩, ⟨_, rfl, rfl⟩, ⟨_, rfl, by decide⟩⟩

theorem witness_WhichOperationsFault :
    (∃ q rest, byteWaits.pending = q :: rest ∧ decode q.request.cmd q.request.len = .ok (.byte 0x12 0x34)) ∧
    (∃ q rest q' rest' t t', bufWaits.pending = q :: rest ∧ overrunWaits.pending = q' :: rest' ∧
      q.request.buf.length = q'.request.buf.length ∧ exec (.buf 0x00 3) bufWaits = .next t ∧ exec (.buf 0xAA 3) overrunWaits = .next t') :=
  ⟨⟨_, [], rfl, by decide⟩, ⟨_, [], _, [], _, _, rfl, rfl, rfl, rfl, rfl⟩⟩

theorem witness_StepRunsDecodedOperation :
    (∃ q rest, byteWaits.pending = q :: rest ∧ decode q.request.cmd q.request.len = .ok (.byte 0x12 0x34)) ∧
    (∃ q rest, bufWaits.pending = q :: rest ∧ decode q.request.cmd q.request.len = .ok (.buf 0xAA 2)) :=
  ⟨⟨_, [], rfl, by decide⟩, ⟨_, [], rfl, by decide⟩⟩

/-- The three ways of R52: the OPCs next to the two assigned ones, and the lowest bit of each reserved field. -/
theorem witness_IllegalWordTaken :
    (BitVec.extractLsb' 24 8 0x00000000#32 ≠ 0x01#8 ∧ BitVec.extractLsb' 24 8 0x00000000#32 ≠ 0x02#8) ∧
    (BitVec.extractLsb' 24 8 0x03000000#32 ≠ 0x01#8 ∧ BitVec.extractLsb' 24 8 0x03000000#32 ≠ 0x02#8) ∧
    (BitVec.extractLsb' 24 8 0x01010000#32 = 0x01#8 ∧ BitVec.extractLsb' 16 8 0x01010000#32 ≠ 0x00#8) ∧
    (BitVec.extractLsb' 24 8 0x02010000#32 = 0x02#8 ∧ BitVec.extractLsb' 16 8 0x02010000#32 ≠ 0x00#8) ∧
    (BitVec.extractLsb' 24 8 0x02000001#32 = 0x02#8 ∧ BitVec.extractLsb' 0 8 0x02000001#32 ≠ 0x00#8) ∧
    (∃ q rest, faultsWait.pending = q :: rest ∧ q.request.cmd = 0x00000000#32) :=
  ⟨by decide, by decide, by decide, by decide, by decide, ⟨_, _, rfl, rfl⟩⟩

theorem witness_OneFaultDecodingFirst : ∃ q rest t, faultsWait.pending = q :: rest ∧ step faultsWait = .next t ∧
    ∃ e, decode q.request.cmd q.request.len = .error e := ⟨_, _, _, rfl, rfl, _, rfl⟩

/-- A fault, then the next request, from the state the fault leaves and from one with the same table and requests. -/
theorem witness_FaultEndsOnlyItsRequest : ∃ q rest t u, faultsWait.pending = q :: rest ∧ step faultsWait = .next t ∧
    t.faultRecord ≠ faultsWait.faultRecord ∧ overrunWaits.table = t.table ∧ overrunWaits.pending = t.pending ∧ step t = .next u :=
  ⟨_, _, _, _, rfl, rfl, by decide, rfl, rfl, rfl⟩

/-- An illegal word raises a fault, with a `LEN` above `AVAIL` as well. -/
theorem raises_illegal : Raises ⟨0x02FF0000, 5, []⟩ (.illegalOperation 0x02FF0000) 0x80000100 :=
  .inl ⟨(fun _ h => by cases h), rfl, rfl⟩

/-- An overrun at `LEN = AVAIL + 1` raises a fault. -/
theorem raises_overrun : Raises (bufRequest 0xAA 3 [0x55, 0x00]) (.bufferOverrun 0x0200AA00 3 2) 0x80000200 :=
  .inr ⟨⟨0xAA, by decide⟩, by decide, by decide, rfl⟩

/-- All four pairs of an illegal word and an overrun. -/
theorem witness_TwoFaultsAreIndependent : ∃ x y : Request,
    (∃ f v g w, Raises x f v ∧ Raises y g w) ∧ (∃ f v g w, Raises y f v ∧ Raises x g w) ∧
    (∃ f v, Raises x f v) ∧ (∃ f v, Raises y f v) ∧
    (waiting zeros [x, y]).pending = [⟨0, x⟩, ⟨0, y⟩] ∧ (waiting zeros [y, x]).pending = [⟨0, y⟩, ⟨0, x⟩] ∧
    (waiting zeros [x, x]).pending = [⟨0, x⟩, ⟨0, x⟩] ∧ (waiting zeros [y, y]).pending = [⟨0, y⟩, ⟨0, y⟩] :=
  ⟨⟨0x02FF0000, 5, []⟩, bufRequest 0xAA 3 [0x55, 0x00], ⟨_, _, _, _, raises_illegal, raises_overrun⟩,
    ⟨_, _, _, _, raises_overrun, raises_illegal⟩, ⟨_, _, raises_illegal⟩, ⟨_, _, raises_overrun⟩, rfl, rfl, rfl, rfl⟩

/-- For `FaultRecordNeverCleared` and `TableNeverWritten`: a run of two steps, from a state whose record agrees with its responses. -/
theorem witness_FaultRecordNeverCleared : (∃ t, Host.Core.run Sys2Proof.core 2 faultsWait = .next t ∧ t.faultRecord ≠ []) ∧
    faultsWait.faultRecord.map faultReported = faultsWait.delivered.filterMap faultDelivered? :=
  ⟨⟨_, rfl, by decide⟩, by decide⟩

theorem witness_WaitsForARequest : (waiting zeros []).pending = [] := rfl

theorem witness_TableInvariant : (Vector.replicate 256 0x01#8)[0] ≠ 0x00#8 ∧ (Vector.replicate 256 0x00#8)[0] = 0x00#8 := by simp

/-- For `TableNeverWritten` and `IssueKeepsInvariant`: an empty buffer port is within every bound. -/
theorem witness_TableNeverWritten : ∃ t, issue? 1 (byteRequest 0x12 0x34) State.reset = some t ∧ t.pending.length = 1 :=
  ⟨present 1 (byteRequest 0x12 0x34) State.reset, by simp [issue?, availWf, byteRequest], rfl⟩

theorem witness_StepAnswersOneRequest : ∃ q rest, faultsWait.pending = q :: rest ∧ rest.length = 1 := ⟨_, _, rfl, rfl⟩

theorem witness_InterleavingChangesNoResponse :
    (waiting zeros [byteRequest 0x12 0x34, bufRequest 0xAA 2 [0x55, 0x00]]).pending.Perm
      (waiting zeros [bufRequest 0xAA 2 [0x55, 0x00], byteRequest 0x12 0x34]).pending := List.Perm.swap _ _ _

/-- Caller 0 issues the same request in both; caller 1 issues a faulting one in the second only. -/
theorem witness_CallersAreIsolated :
    byteWaits.table = (present 1 ⟨0x00000000, 0, []⟩ byteWaits).table ∧
    requestsOf 0 byteWaits = requestsOf 0 (present 1 ⟨0x00000000, 0, []⟩ byteWaits) ∧ (requestsOf 0 byteWaits).length = 1 :=
  ⟨rfl, by decide, by decide⟩

/-- A state after a result and an overrun, with a request that waits. -/
def afterOverrun : State where
  table := zeros
  pending := [⟨0, byteRequest 0x12 0x34⟩]
  delivered := [⟨0, 0x00000000⟩, ⟨1, 0x80000200⟩]
  faultRecord := [⟨1, .bufferOverrun 0x0200AA00 3 2⟩]

/-- For `StepKeepsInvariant`, `IssueKeepsInvariant`, `SuccessMeansNoFaultResponse`. -/
theorem witness_StepKeepsInvariant : Inv afterOverrun where
  portsBounded := by simp [afterOverrun, byteRequest]
  responsesLegal := by decide
  recordComplete := by decide
  recordJustified := by
    intro f hf
    cases List.mem_singleton.1 hf
    exact ⟨by decide, 0xAA, by decide⟩

/-- At the bound: `MAX_AVAIL` bytes are taken, one more is turned away. -/
theorem witness_IssueKeepsInvariant :
    (∃ t, issue? 0 (bufRequest 0x00 0 (List.replicate Config.maxAvail 0x00)) State.reset = some t) ∧
    issue? 0 (bufRequest 0x00 0 (List.replicate (Config.maxAvail + 1) 0x00)) State.reset = none := by
  simp [issue?, availWf, bufRequest]

/-- The case R88's reading turns on: caller 0 has its result, caller 1 had a fault and still has a request waiting. -/
theorem witness_SuccessMeansNoFaultResponse :
    let s : State := { afterOverrun with pending := [⟨1, byteRequest 0x12 0x34⟩] }
    succeeded 0 s = true ∧ ended 1 s = false ∧ succeeded 1 s = false ∧ allSucceeded s = false := by decide

theorem witness_LastObservedByteIsTheChecksum : ([0x31, 0x32] : List Byte) ≠ [] := by decide

theorem witness_FetchWordIsServedNext : decodeTableWord 32 0x01001234 = some (.byte 0x12 0x34) ∧
    decodeTableWord 32 0x0200FF00 = some (.buf 0xFF 0) := by decide

end Sys2Proof.Tests
end

/-! The statements of spec/00_scope.md: the fold (R12), and the invariant of a run under a step and under a caller that presents a request.
A step leaves the state alone, responds with a result, or raises a fault that the request justifies (`step_outcomes`). -/

namespace Sys2Proof.Machine

/-! ### Response words read back -/

@[simp] theorem decodeResp_encodeResp_ok (crc : Byte) : decodeResp (encodeResp (.ok crc)) = some (.ok crc) := by
  have hreserved : (crc.setWidth 32).extractLsb' 8 23 = 0#23 := by
    apply BitVec.eq_of_getElem_eq; simp
  have hcrc : (crc.setWidth 32).extractLsb' 0 8 = crc := by
    apply BitVec.eq_of_getElem_eq
    intro i hi
    simp [hi, show i < 32 by omega]
  simp [decodeResp, encodeResp, hreserved, hcrc]

@[simp] theorem decodeResp_encodeResp_fault (code : FaultCode) :
    decodeResp (encodeResp (.fault code)) = some (.fault code) := by
  cases code <;> decide

theorem decodeResp_encodeResp (r : Response) : decodeResp (encodeResp r) = some r := by
  cases r with
  | ok crc => exact decodeResp_encodeResp_ok crc
  | fault code => exact decodeResp_encodeResp_fault code

@[simp] theorem reportedFault?_encodeResp_ok (crc : Byte) : reportedFault? (encodeResp (.ok crc)) = none := by
  simp [reportedFault?]

@[simp] theorem reportedFault?_encodeResp_fault (code : FaultCode) :
    reportedFault? (encodeResp (.fault code)) = some code := by
  simp [reportedFault?]

/-- The word of `fault(0x01)` (R57, R74). -/
theorem encodeResp_illegalOperation : encodeResp (.fault .illegalOperation) = 0x80000100#32 := by decide

/-- The word of `fault(0x02)` (R57, R75). -/
theorem encodeResp_bufferOverrun : encodeResp (.fault .bufferOverrun) = 0x80000200#32 := by decide

/-! ### What a step does with the request in progress -/

/-- What a request raises is what R74 and R75 raise it for. -/
theorem Raises.justified {r : Request} {f : Fault} {resp : Word} (h : Raises r f resp) : Justified f := by
  obtain ⟨hillegal, rfl, -⟩ | ⟨hbuf, hover, rfl, -⟩ := h
  · obtain ⟨-, -, hok⟩ | ⟨-, -, -, hok⟩ | herr := decode_cases r.cmd r.len
    · exact absurd hok (hillegal _)
    · exact absurd hok (hillegal _)
    · exact decode_error_any_len herr
  · exact ⟨hover, hbuf⟩

/-- Every step with a request in progress responds with a result, or raises the fault of that request (R43, R73). -/
theorem step_of_pending {s : State} {q : Issued} {rest : List Issued} (h : s.pending = q :: rest) :
    (∃ crc, step s = .next (respond (.ok crc) s)) ∨
    (∃ f, Raises q.request f (encodeResp (.fault (faultCodeOf f))) ∧ step s = .next (raise f s)) := by
  simp only [step, decodeInProgress_of_pending h]
  obtain ⟨-, -, hd⟩ | ⟨-, -, -, hd⟩ | hd := decode_cases q.request.cmd q.request.len
  · rw [hd]
    exact .inl ⟨_, rfl⟩
  · rw [hd]
    by_cases hl : q.request.buf.length < q.request.len.toNat
    · refine .inr ⟨_, .inr ⟨⟨_, hd⟩, hl, rfl, encodeResp_bufferOverrun⟩, ?_⟩
      rw [raise_of_pending h]
      exact execBuf_of_gt h hl _
    · refine .inl ⟨updateAll s.table (fieldCrc q.request.cmd) (q.request.buf.take q.request.len.toNat), ?_⟩
      rw [respond_of_pending h]
      exact execBuf_of_le h (Nat.le_of_not_lt hl) _
  · rw [hd]
    exact .inr ⟨_, .inl ⟨by simp [hd], rfl, encodeResp_illegalOperation⟩, rfl⟩

/-- All that one step can do, as what it does to the state: nothing, a result, or a fault that is justified. -/
theorem step_outcomes (s : State) :
    step s = .next s ∨ (∃ crc, step s = .next (respond (.ok crc) s)) ∨
    (∃ f, Justified f ∧ step s = .next (raise f s)) := by
  obtain ⟨-, hstep⟩ | ⟨q, rest, hq, -⟩ := step_cases s
  · exact .inl hstep
  · obtain hok | ⟨f, hf, hstep⟩ := step_of_pending hq
    · exact .inr (.inl hok)
    · exact .inr (.inr ⟨f, hf.justified, hstep⟩)

/-! ### The invariant under each operation on the state -/

/-- A result adds a legal word that reports no fault. -/
theorem Inv.respond_ok {s : State} (hs : Inv s) (crc : Byte) : Inv (respond (.ok crc) s) := by
  cases h : s.pending with
  | nil => rwa [respond_of_waiting h]
  | cons q rest =>
    obtain ⟨hports, hlegal, hcomplete, hjustified⟩ := hs
    rw [respond_of_pending h]
    refine ⟨fun p hp => hports p (by simp [h, hp]), ?_, ?_, hjustified⟩
    · exact List.forall_mem_append.2 ⟨hlegal, by simp⟩
    · simpa [faultDelivered?] using hcomplete

/-- A fault adds a legal word and, under the same caller and code, its entry of the record. -/
theorem Inv.raise {s : State} (hs : Inv s) {f : Fault} (hf : Justified f) : Inv (raise f s) := by
  cases h : s.pending with
  | nil => rwa [raise_of_waiting h]
  | cons q rest =>
    obtain ⟨hports, hlegal, hcomplete, hjustified⟩ := hs
    rw [raise_of_pending h]
    refine ⟨fun p hp => hports p (by simp [h, hp]), ?_, ?_, ?_⟩
    · exact List.forall_mem_append.2 ⟨hlegal, by simp⟩
    · simp [hcomplete, faultReported, faultDelivered?]
    · exact List.forall_mem_append.2 ⟨hjustified, List.forall_mem_singleton.2 hf⟩

/-- Presenting a request touches the waiting requests only, so its own port is all there is to check. -/
theorem Inv.present {s : State} (hs : Inv s) (caller : Nat) {r : Request} (hr : avail r.buf ≤ Config.maxAvail) :
    Inv (present caller r s) := by
  obtain ⟨hports, hlegal, hcomplete, hjustified⟩ := hs
  exact ⟨List.forall_mem_append.2 ⟨hports, List.forall_mem_singleton.2 hr⟩, hlegal, hcomplete, hjustified⟩

/-! ### A caller that issues a request -/

theorem issue?_eq_none_iff {caller : Nat} {r : Request} {s : State} :
    issue? caller r s = none ↔ Config.maxAvail < r.buf.length := by
  simp [issue?, availWf]

theorem issue?_eq_some_iff {caller : Nat} {r : Request} {s t : State} :
    issue? caller r s = some t ↔ avail r.buf ≤ Config.maxAvail ∧ present caller r s = t := by
  simp [issue?, availWf]

end Sys2Proof.Machine

namespace Sys2Proof.Proofs.Scope

open Sys2Proof Sys2Proof.Machine

/-- Settles O46: each of the three things a step can do keeps the invariant. -/
theorem stepKeepsInvariant : Obligations.StepKeepsInvariant := by
  intro s t hs hstep
  obtain h | ⟨crc, h⟩ | ⟨f, hf, h⟩ := step_outcomes s <;> rw [h] at hstep <;> cases hstep
  · exact hs
  · exact hs.respond_ok crc
  · exact hs.raise hf

/-- Settles O47: a request that is taken is presented within the bound, and presenting it keeps the invariant. -/
theorem issueKeepsInvariant : Obligations.IssueKeepsInvariant := by
  intro s caller r
  refine ⟨issue?_eq_none_iff, fun t ht => ?_⟩
  obtain ⟨hr, rfl⟩ := issue?_eq_some_iff.1 ht
  exact ⟨rfl, fun hs => hs.present caller hr⟩

/-- Settles O26, by the fold's two equations, the byte step being a table read. -/
theorem foldIsTheLeftFold : Obligations.FoldIsTheLeftFold := by
  intro T c b bs
  exact ⟨updateAll_nil T c, updateAll_cons T c b bs⟩

end Sys2Proof.Proofs.Scope

/-! The statements of spec/10_state.md: the table's one invariant (R18), the table as read-only state (R16, R17), and the request that a row
of bits stands for. What every step keeps, every run keeps (`run_keeps`); the table is such a thing (`step_table`). -/

namespace Sys2Proof

/-- A row of bits gives the operation that its two words decode to. -/
theorem decodeTableWord_eq_some_iff {nbits w : Nat} {i : Instr} :
    decodeTableWord nbits w = some i ↔ decode (wordsOfTable nbits w).1 (wordsOfTable nbits w).2 = .ok i := by
  unfold decodeTableWord
  cases decode (wordsOfTable nbits w).1 (wordsOfTable nbits w).2 <;> simp

/-! ### The check of a table parameter (R18) -/

theorem tableWf_eq_true_iff {v : Vector Byte 256} : tableWf v = true ↔ v[0] = 0x00#8 := by
  simp [tableWf]

theorem tableWf_eq_false_iff {v : Vector Byte 256} : tableWf v = false ↔ v[0] ≠ 0x00#8 := by
  simp [tableWf]

theorem ofEntries?_of_zeroEntry {v : Vector Byte 256} (h : v[0] = 0x00#8) : Table.ofEntries? v = some ⟨v, h⟩ :=
  dif_pos h

theorem ofEntries?_eq_none_iff {v : Vector Byte 256} : Table.ofEntries? v = none ↔ v[0] ≠ 0x00#8 := by
  simp [Table.ofEntries?]

end Sys2Proof

namespace Sys2Proof.Machine

/-! ### A step that runs an operation, and runs of steps -/

/-- A request whose words decode is served by its operation (R43). -/
theorem step_of_decode_ok {s : State} {q : Issued} {rest : List Issued} {i : Instr} (h : s.pending = q :: rest)
    (hd : decode q.request.cmd q.request.len = .ok i) : step s = exec i s := by
  simp only [step, decodeInProgress_of_pending h, hd]

/-- A run of one step more is a step and then a run from where it leads. -/
theorem run_succ_eq_next_iff {M : Host.Core} {n : Nat} {s t : M.State} :
    M.run (n + 1) s = .next t ↔ ∃ u, M.step s = .next u ∧ M.run n u = .next t := by
  rw [Host.Core.run]
  cases M.step s <;> simp

/-- What every step keeps, every run keeps. -/
theorem run_keeps {P : State → Prop} (hP : ∀ s t, P s → step s = .next t → P t) {n : Nat} {s t : State} (hs : P s)
    (hrun : Host.Core.run Sys2Proof.core n s = .next t) : P t := by
  induction n generalizing s with
  | zero => cases hrun; exact hs
  | succ n ih =>
    obtain ⟨u, hstep, hrest⟩ := run_succ_eq_next_iff.1 hrun
    exact ih (hP s u hs hstep) hrest

/-! ### The table is never written (R17) -/

theorem step_table {s t : State} (h : step s = .next t) : t.table = s.table := by
  obtain hwait | ⟨crc, hok⟩ | ⟨f, -, hfault⟩ := step_outcomes s
  · rw [hwait] at h
    cases h; rfl
  · rw [hok] at h
    cases h; exact respond_table _ s
  · rw [hfault] at h
    cases h; exact raise_table f s

theorem run_table {n : Nat} {s t : State} (h : Host.Core.run Sys2Proof.core n s = .next t) : t.table = s.table :=
  run_keeps (P := fun u => u.table = s.table) (fun _ _ hu hstep => (step_table hstep).trans hu) rfl h

theorem issue?_table {caller : Nat} {r : Request} {s t : State} (h : issue? caller r s = some t) : t.table = s.table := by
  obtain ⟨-, rfl⟩ := issue?_eq_some_iff.1 h
  exact present_table caller r s

end Sys2Proof.Machine

namespace Sys2Proof.Proofs.State

open Sys2Proof Sys2Proof.Machine

/-- Settles O38: no step writes the table, so no run does, and an issued request joins the waiting ones only. -/
theorem tableNeverWritten : Obligations.TableNeverWritten := by
  refine ⟨fun n s t hrun => ⟨run_table hrun, fun i => ?_⟩, fun caller r s t hissue => issue?_table hissue⟩
  rw [run_table hrun]

/-- Settles O37: the invariant is part of a table, and it is all that the check of a parameter asks. -/
theorem tableInvariant : Obligations.TableInvariant := by
  refine ⟨tableRead_zero, fun v hbroken => ?_, fun v hzero => ?_⟩
  · exact ⟨tableWf_eq_false_iff.2 hbroken, ofEntries?_eq_none_iff.2 hbroken⟩
  · exact ⟨tableWf_eq_true_iff.2 hzero, ⟨v, hzero⟩, ofEntries?_of_zeroEntry hzero, fun _ => rfl⟩

/-- Settles O48: the request presented is the first that waits, and its words are those the row of bits decodes by. -/
theorem fetchWordIsServedNext : Obligations.FetchWordIsServedNext := by
  intro s nbits w i hdecode
  exact step_of_decode_ok (withFetchWord_pending s nbits w) (decodeTableWord_eq_some_iff.1 hdecode)

end Sys2Proof.Proofs.State

/-! The statements of spec/20_memory.md: what one request gets, as a function of the table and the request alone (`responseTo`), that a step
delivers it (`step_delivers`), and that a run delivers it to every request that waits (`serveAll_delivers`). R34, R36, R38. -/

namespace Sys2Proof

/-- Decoding undoes encoding for `CRC8.BUF`, whose `LEN` word stands beside the command word (R58). -/
theorem decode_encodeCmd_buf (crc : Byte) (len : Word) : decode (encodeCmd (.buf crc len)) len = .ok (.buf crc len) := by
  have hopc : opcBuf ≠ opcByte := by decide
  simp [decode, hopc, fieldOpc_encode_buf, fieldRsv0_encode_buf, fieldRsv1_encode_buf, fieldCrc_encode_buf]

end Sys2Proof

namespace Sys2Proof.Machine

/-! ### The response to a request (R38) -/

/-- The response to a request, from the table and the request alone: no caller, no other request and no earlier response has a part in it. -/
def responseTo (T : Table) (r : Request) : Response :=
  match decode r.cmd r.len with
  | .error _ => .fault .illegalOperation
  | .ok (.byte crc data) => .ok (update T crc data)
  | .ok (.buf crc len) =>
    if r.buf.length < len.toNat then .fault .bufferOverrun else .ok (updateAll T crc (bufBytes r.buf len))

/-- What the engine delivers for a request that waits: its response word, to its caller. -/
def deliveryFor (T : Table) (q : Issued) : Delivery := ⟨q.caller, encodeResp (responseTo T q.request)⟩

section
variable {r : Request}

theorem responseTo_of_decode_error {e : DecodeError} (hd : decode r.cmd r.len = .error e) (T : Table) :
    responseTo T r = .fault .illegalOperation := by
  simp only [responseTo, hd]

theorem responseTo_of_decode_byte {crc data : Byte} (hd : decode r.cmd r.len = .ok (.byte crc data)) (T : Table) :
    responseTo T r = .ok (update T crc data) := by
  simp only [responseTo, hd]

theorem responseTo_of_decode_buf_of_gt {crc : Byte} {len : Word} (hd : decode r.cmd r.len = .ok (.buf crc len))
    (hl : r.buf.length < len.toNat) (T : Table) : responseTo T r = .fault .bufferOverrun := by
  simp only [responseTo, hd, if_pos hl]

theorem responseTo_of_decode_buf_of_le {crc : Byte} {len : Word} (hd : decode r.cmd r.len = .ok (.buf crc len))
    (hl : len.toNat ≤ r.buf.length) (T : Table) : responseTo T r = .ok (updateAll T crc (bufBytes r.buf len)) := by
  simp only [responseTo, hd, if_neg (Nat.not_lt.2 hl)]

end

/-- A `CRC8.BUF` request within its bound gets the fold of the first `LEN` bytes of its port (R62). -/
theorem responseTo_bufRequest {len : Word} {buf : List Byte} (hl : len.toNat ≤ buf.length) (T : Table) (crc : Byte) :
    responseTo T (bufRequest crc len buf) = .ok (updateAll T crc (bufBytes buf len)) :=
  responseTo_of_decode_buf_of_le (r := bufRequest crc len buf) (decode_encodeCmd_buf crc len) hl T

/-! ### A step delivers the response to the request in progress (R36) -/

/-- A request whose command word does not decode is answered by the fault that its error names (R74). -/
theorem step_of_decode_error {s : State} {q : Issued} {rest : List Issued} {e : DecodeError} (h : s.pending = q :: rest)
    (hd : decode q.request.cmd q.request.len = .error e) : step s = .next (raiseDecodeError e s) := by
  simp only [step, decodeInProgress_of_pending h, hd]

theorem step_delivers {s : State} {q : Issued} {rest : List Issued} (h : s.pending = q :: rest) :
    ∃ t, step s = .next t ∧ t.pending = rest ∧ t.table = s.table ∧
      t.delivered = s.delivered ++ [deliveryFor s.table q] := by
  unfold deliveryFor
  cases hd : decode q.request.cmd q.request.len with
  | error e =>
    obtain ⟨cmd⟩ := e
    rw [step_of_decode_error h hd, responseTo_of_decode_error hd, raiseDecodeError, raise_of_pending h]
    exact ⟨_, rfl, rfl, rfl, rfl⟩
  | ok i =>
    rw [step_of_decode_ok h hd]
    cases i with
    | byte crc data =>
      rw [responseTo_of_decode_byte hd]
      exact ⟨_, execByte_of_pending h crc data, rfl, rfl, rfl⟩
    | buf crc len =>
      obtain hl | hl := Nat.lt_or_ge q.request.buf.length len.toNat
      · rw [responseTo_of_decode_buf_of_gt hd hl]
        exact ⟨_, execBuf_of_gt h hl crc, rfl, rfl, rfl⟩
      · rw [responseTo_of_decode_buf_of_le hd hl]
        exact ⟨_, execBuf_of_le h hl crc, rfl, rfl, rfl⟩

/-- A request taken alone gets the response that it gets in any run. -/
theorem answerAlone_eq (T : Table) (r : Request) : answerAlone T r = some (encodeResp (responseTo T r)) := by
  obtain ⟨t, hstep, -, -, hdelivered⟩ :=
    step_delivers (s := { table := T, pending := [⟨0, r⟩], delivered := [], faultRecord := [] }) rfl
  simp [answerAlone, hstep, hdelivered, deliveryFor]

/-! ### A run delivers the response to every request that waits (R38, R99) -/

theorem run_delivers {s : State} {waiting : List Issued} (h : s.pending = waiting) :
    ∃ t, Host.Core.run Sys2Proof.core waiting.length s = .next t ∧ t.pending = [] ∧
      t.delivered = s.delivered ++ waiting.map (deliveryFor s.table) := by
  induction waiting generalizing s with
  | nil => exact ⟨s, rfl, h, by simp⟩
  | cons q rest ih =>
    obtain ⟨u, hstep, hpending, htable, hdelivered⟩ := step_delivers h
    obtain ⟨t, hrun, hended, hrest⟩ := ih hpending
    refine ⟨t, run_succ_eq_next_iff.2 ⟨u, hstep, hrun⟩, hended, ?_⟩
    rw [hrest, hdelivered, htable, List.append_assoc, List.singleton_append, List.map_cons]

theorem serveAll_delivers (s : State) :
    ∃ t, serveAll s = .next t ∧ t.pending = [] ∧ t.delivered = s.delivered ++ s.pending.map (deliveryFor s.table) :=
  run_delivers rfl

/-! ### The bytes that `CRC8.BUF` reads (R34) -/

/-- Two ports that read the same below `LEN` hold the same first `LEN` bytes. -/
theorem bufBytes_congr {buf buf' : List Byte} {len : Word} (h : ∀ i, i < len.toNat → bufRead buf i = bufRead buf' i) :
    bufBytes buf len = bufBytes buf' len := by
  apply List.ext_getElem?
  intro i
  simp only [bufBytes, List.getElem?_take]
  split
  · next hi => exact h i hi
  · rfl

end Sys2Proof.Machine

namespace Sys2Proof.Proofs.Memory

open Sys2Proof Sys2Proof.Machine

/-- Settles O23: within the bound the response is the fold of the first `LEN` bytes, and these are the same for both ports. -/
theorem bufReadsOnlyLenBytes : Obligations.BufReadsOnlyLenBytes := by
  intro T crc len buf buf' hbuf hbuf' hsame
  rw [answerAlone_eq, answerAlone_eq, responseTo_bufRequest hbuf, responseTo_bufRequest hbuf', bufBytes_congr hsame]

/-- Settles O39: the word a step delivers is that of a response, so it reads back as one. -/
theorem stepAnswersOneRequest : Obligations.StepAnswersOneRequest := by
  intro s q rest h
  obtain ⟨t, hstep, hpending, htable, hdelivered⟩ := step_delivers h
  exact ⟨t, _, hstep, hpending, htable, hdelivered, by simp [decodeResp_encodeResp]⟩

/-- Settles O41: `responseTo` is the function, and a run delivers its image of the waiting list, which carries permutations over. -/
theorem interleavingChangesNoResponse : Obligations.InterleavingChangesNoResponse := by
  intro T
  refine ⟨fun r => encodeResp (responseTo T r), fun s hs => ?_, fun s s' hs hs' hperm => ?_⟩
  · obtain ⟨t, hserve, -, hdelivered⟩ := serveAll_delivers s
    exact ⟨t, hserve, hs ▸ hdelivered⟩
  · obtain ⟨t, hserve, -, hdelivered⟩ := serveAll_delivers s
    obtain ⟨t', hserve', -, hdelivered'⟩ := serveAll_delivers s'
    rw [hs] at hdelivered
    rw [hs'] at hdelivered'
    exact ⟨t, t', _, _, hserve, hserve', hdelivered, hdelivered', hperm.map (deliveryFor T)⟩

end Sys2Proof.Proofs.Memory

/-! The statements of spec/30_encoding.md. A command word is its four fields (`word_eq_iff_fields`), so a word decodes to an operation exactly
when it is the operation's encoding (`decode_eq_ok_byte_iff`, `decode_eq_ok_buf_iff`), and to the error exactly when it has neither format. -/

namespace Sys2Proof

/-! ### Command words as their fields (R44, R45) -/

/-- Two words are equal when their four byte fields are. -/
theorem word_eq_iff_fields {v w : Word} :
    v = w ↔ fieldOpc v = fieldOpc w ∧ fieldRsv0 v = fieldRsv0 w ∧ fieldCrc v = fieldCrc w ∧ fieldData v = fieldData w := by
  constructor
  · rintro rfl
    exact ⟨rfl, rfl, rfl, rfl⟩
  · rintro ⟨hopc, hrsv0, hcrc, hdata⟩
    rw [word_eq_fields v, word_eq_fields w, hopc, hrsv0, hcrc, hdata]

/-- A word under a mask is another word when it is so field by field. -/
theorem and_eq_iff_fields {v mask w : Word} :
    v &&& mask = w ↔ fieldOpc v &&& fieldOpc mask = fieldOpc w ∧ fieldRsv0 v &&& fieldRsv0 mask = fieldRsv0 w ∧
      fieldCrc v &&& fieldCrc mask = fieldCrc w ∧ fieldData v &&& fieldData mask = fieldData w := by
  simp only [word_eq_iff_fields, fieldOpc, fieldRsv0, fieldCrc, fieldData, BitVec.extractLsb'_and]

theorem byte_and_0xFF (b : Byte) : b &&& 0xFF#8 = b := BitVec.and_allOnes

/-- The format-B words: those with its `OPC` and a zero `RSV0`. -/
theorem eq_encodeCmd_byte_iff {cmd : Word} {crc data : Byte} :
    cmd = encodeCmd (.byte crc data) ↔
      (fieldOpc cmd = opcByte ∧ fieldRsv0 cmd = 0x00#8) ∧ fieldCrc cmd = crc ∧ fieldData cmd = data := by
  rw [word_eq_iff_fields, fieldOpc_encode_byte, fieldRsv0_encode_byte, fieldCrc_encode_byte, fieldData_encode_byte, and_assoc]

/-- The format-L words: those with its `OPC` and zeros in `RSV0` and `RSV1`. -/
theorem eq_encodeCmd_buf_iff {cmd : Word} {crc : Byte} {len : Word} :
    cmd = encodeCmd (.buf crc len) ↔
      (fieldOpc cmd = opcBuf ∧ fieldRsv0 cmd = 0x00#8 ∧ fieldRsv1 cmd = 0x00#8) ∧ fieldCrc cmd = crc := by
  have hdata : fieldData (encodeCmd (.buf crc len)) = 0x00#8 := fieldRsv1_encode_buf crc len
  rw [word_eq_iff_fields, fieldOpc_encode_buf, fieldRsv0_encode_buf, fieldCrc_encode_buf, hdata, and_assoc, and_assoc,
    and_comm (a := fieldCrc cmd = crc)]
  rfl

/-- Match and mask of format B (R44) fix its `OPC` and `RSV0` and leave the two low fields free. -/
theorem matches_byteFormat_iff {cmd : Word} :
    cmd &&& 0xFFFF0000#32 = 0x01000000#32 ↔ fieldOpc cmd = opcByte ∧ fieldRsv0 cmd = 0x00#8 := by
  have hmask : fieldOpc 0xFFFF0000#32 = 0xFF#8 ∧ fieldRsv0 0xFFFF0000#32 = 0xFF#8 ∧ fieldCrc 0xFFFF0000#32 = 0x00#8 ∧
    fieldData 0xFFFF0000#32 = 0x00#8 := by decide
  have hmatch : fieldOpc 0x01000000#32 = opcByte ∧ fieldRsv0 0x01000000#32 = 0x00#8 ∧ fieldCrc 0x01000000#32 = 0x00#8 ∧
    fieldData 0x01000000#32 = 0x00#8 := by decide
  simp [and_eq_iff_fields, hmask, hmatch, byte_and_0xFF]

/-- Match and mask of format L (R45) fix its `OPC`, `RSV0` and `RSV1` and leave `CRC` free. -/
theorem matches_bufFormat_iff {cmd : Word} :
    cmd &&& 0xFFFF00FF#32 = 0x02000000#32 ↔ fieldOpc cmd = opcBuf ∧ fieldRsv0 cmd = 0x00#8 ∧ fieldRsv1 cmd = 0x00#8 := by
  have hmask : fieldOpc 0xFFFF00FF#32 = 0xFF#8 ∧ fieldRsv0 0xFFFF00FF#32 = 0xFF#8 ∧ fieldCrc 0xFFFF00FF#32 = 0x00#8 ∧
    fieldData 0xFFFF00FF#32 = 0xFF#8 := by decide
  have hmatch : fieldOpc 0x02000000#32 = opcBuf ∧ fieldRsv0 0x02000000#32 = 0x00#8 ∧ fieldCrc 0x02000000#32 = 0x00#8 ∧
    fieldData 0x02000000#32 = 0x00#8 := by decide
  have hrsv1 : fieldRsv1 cmd = fieldData cmd := rfl
  simp [and_eq_iff_fields, hmask, hmatch, hrsv1, byte_and_0xFF]

/-- Four bytes in a row are the word with these four fields. -/
theorem append_eq_fields (opc rsv0 crc data : Byte) :
    opc ++ rsv0 ++ crc ++ data =
      opc.setWidth 32 <<< 24 ||| rsv0.setWidth 32 <<< 16 ||| crc.setWidth 32 <<< 8 ||| data.setWidth 32 := by
  simpa using BitVec.setWidth_append_append_append_eq_shiftLeft_setWidth_or (w'''' := 32) (b := opc) (b' := rsv0) (b'' := crc)
    (b''' := data)

/-! ### The decoder branch by branch (R50) -/

theorem opcByte_ne_opcBuf : opcByte ≠ opcBuf := by decide

theorem decode_of_byteFormat {cmd : Word} (h : fieldOpc cmd = opcByte ∧ fieldRsv0 cmd = 0x00#8) (len : Word) :
    decode cmd len = .ok (.byte (fieldCrc cmd) (fieldData cmd)) :=
  if_pos h

theorem decode_of_bufFormat {cmd : Word} (h : fieldOpc cmd = opcBuf ∧ fieldRsv0 cmd = 0x00#8 ∧ fieldRsv1 cmd = 0x00#8)
    (len : Word) : decode cmd len = .ok (.buf (fieldCrc cmd) len) := by
  have hbyte : ¬ (fieldOpc cmd = opcByte ∧ fieldRsv0 cmd = 0x00#8) := fun hb => opcByte_ne_opcBuf (hb.1.symm.trans h.1)
  rw [decode, if_neg hbyte, if_pos h]

theorem decode_of_neitherFormat {cmd : Word} (hbyte : ¬ (fieldOpc cmd = opcByte ∧ fieldRsv0 cmd = 0x00#8))
    (hbuf : ¬ (fieldOpc cmd = opcBuf ∧ fieldRsv0 cmd = 0x00#8 ∧ fieldRsv1 cmd = 0x00#8)) (len : Word) :
    decode cmd len = .error (.illegalOperation cmd) := by
  rw [decode, if_neg hbyte, if_neg hbuf]

theorem decode_eq_ok_byte_iff {cmd len : Word} {crc data : Byte} :
    decode cmd len = .ok (.byte crc data) ↔ cmd = encodeCmd (.byte crc data) := by
  rw [eq_encodeCmd_byte_iff]
  constructor
  · intro h
    obtain ⟨hopc, hrsv0, hd⟩ | ⟨-, -, -, hd⟩ | hd := decode_cases cmd len <;> rw [hd] at h <;> cases h
    exact ⟨⟨hopc, hrsv0⟩, rfl, rfl⟩
  · rintro ⟨hfmt, rfl, rfl⟩
    exact decode_of_byteFormat hfmt len

theorem decode_eq_ok_buf_iff {cmd len : Word} {crc : Byte} {n : Word} :
    decode cmd len = .ok (.buf crc n) ↔ cmd = encodeCmd (.buf crc n) ∧ n = len := by
  rw [eq_encodeCmd_buf_iff]
  constructor
  · intro h
    obtain ⟨-, -, hd⟩ | ⟨hopc, hrsv0, hrsv1, hd⟩ | hd := decode_cases cmd len <;> rw [hd] at h <;> cases h
    exact ⟨⟨⟨hopc, hrsv0, hrsv1⟩, rfl⟩, rfl⟩
  · rintro ⟨⟨hfmt, rfl⟩, rfl⟩
    exact decode_of_bufFormat hfmt n

theorem fieldOpc_of_decode_byte {cmd len : Word} {crc data : Byte} (h : decode cmd len = .ok (.byte crc data)) :
    fieldOpc cmd = opcByte := by
  rw [decode_eq_ok_byte_iff.1 h, fieldOpc_encode_byte]

theorem fieldOpc_of_decode_buf {cmd len : Word} {crc : Byte} {n : Word} (h : decode cmd len = .ok (.buf crc n)) :
    fieldOpc cmd = opcBuf := by
  rw [(decode_eq_ok_buf_iff.1 h).1, fieldOpc_encode_buf]

/-- Decoding undoes encoding for `CRC8.BYTE`, whatever stands as the `LEN` word (R43, R58). -/
theorem decode_encodeCmd_byte (crc data : Byte) (len : Word) : decode (encodeCmd (.byte crc data)) len = .ok (.byte crc data) :=
  decode_eq_ok_byte_iff.2 rfl

/-- Encoding undoes decoding (R58). -/
theorem encodeCmd_of_decode_ok {cmd len : Word} {i : Instr} (h : decode cmd len = .ok i) : encodeCmd i = cmd := by
  cases i with
  | byte crc data => exact (decode_eq_ok_byte_iff.1 h).symm
  | buf crc n => exact (decode_eq_ok_buf_iff.1 h).1.symm

/-- Decoding raises nothing but `IllegalOperation` of the word itself. -/
theorem eq_illegalOperation_of_decode_error {cmd len : Word} {e : DecodeError} (h : decode cmd len = .error e) :
    e = .illegalOperation cmd := by
  obtain ⟨-, -, hd⟩ | ⟨-, -, -, hd⟩ | hd := decode_cases cmd len <;> rw [hd] at h <;> cases h
  rfl

/-- The illegal words are those of neither format. -/
theorem decode_eq_error_iff {cmd len : Word} :
    decode cmd len = .error (.illegalOperation cmd) ↔
      ¬ (fieldOpc cmd = opcByte ∧ fieldRsv0 cmd = 0x00#8) ∧
      ¬ (fieldOpc cmd = opcBuf ∧ fieldRsv0 cmd = 0x00#8 ∧ fieldRsv1 cmd = 0x00#8) := by
  constructor
  · intro h
    refine ⟨fun hbyte => ?_, fun hbuf => ?_⟩
    · rw [decode_of_byteFormat hbyte] at h; cases h
    · rw [decode_of_bufFormat hbuf] at h; cases h
  · rintro ⟨hbyte, hbuf⟩
    exact decode_of_neitherFormat hbyte hbuf len

/-- The words of neither format are the three kinds that R52 lists. -/
theorem neitherFormat_iff {cmd : Word} :
    (¬ (fieldOpc cmd = opcByte ∧ fieldRsv0 cmd = 0x00#8) ∧
      ¬ (fieldOpc cmd = opcBuf ∧ fieldRsv0 cmd = 0x00#8 ∧ fieldRsv1 cmd = 0x00#8)) ↔
    (fieldOpc cmd ≠ opcByte ∧ fieldOpc cmd ≠ opcBuf) ∨
    (fieldOpc cmd = opcByte ∧ fieldRsv0 cmd ≠ 0x00#8) ∨
    (fieldOpc cmd = opcBuf ∧ (fieldRsv0 cmd ≠ 0x00#8 ∨ fieldRsv1 cmd ≠ 0x00#8)) := by
  by_cases hbyte : fieldOpc cmd = opcByte
  · simp [hbyte, opcByte_ne_opcBuf]
  · by_cases hbuf : fieldOpc cmd = opcBuf
    · simp [hbuf, opcByte_ne_opcBuf.symm, imp_iff_not_or]
    · simp [hbyte, hbuf]

/-- The `LEN` word has no part in a decoding other than to `CRC8.BUF` (R43). -/
theorem decode_any_len {cmd len : Word} (h : ∀ crc n, decode cmd len ≠ .ok (.buf crc n)) (len' : Word) :
    decode cmd len' = decode cmd len := by
  cases hd : decode cmd len with
  | error e => exact decode_error_any_len hd len'
  | ok i =>
    cases i with
    | byte crc data => exact decode_eq_ok_byte_iff.2 (decode_eq_ok_byte_iff.1 hd)
    | buf crc n => exact absurd hd (h crc n)

/-! ### How many words are legal (R50) -/

theorem natCard_byte : Nat.card Byte = 256 := by
  rw [Nat.card_congr BitVec.equivFin.toEquiv, Nat.card_fin]
  rfl

theorem encodeCmd_byte_injective : Function.Injective fun p : Byte × Byte => encodeCmd (.byte p.1 p.2) := by
  rintro ⟨crc, data⟩ ⟨crc', data'⟩ h
  obtain ⟨-, hcrc, hdata⟩ := eq_encodeCmd_byte_iff.1 h
  rw [fieldCrc_encode_byte] at hcrc
  rw [fieldData_encode_byte] at hdata
  exact Prod.ext hcrc hdata

theorem encodeCmd_buf_injective (len : Word) : Function.Injective fun crc : Byte => encodeCmd (.buf crc len) := by
  intro crc crc' h
  obtain ⟨-, hcrc⟩ := eq_encodeCmd_buf_iff.1 h
  rwa [fieldCrc_encode_buf] at hcrc

/-- The words that decode to `CRC8.BYTE` are the encodings of its operand pairs. -/
theorem decodesToByte_iff_mem_range {cmd : Word} :
    (∃ len crc data, decode cmd len = .ok (.byte crc data)) ↔
      cmd ∈ Set.range fun p : Byte × Byte => encodeCmd (.byte p.1 p.2) := by
  simp [decode_eq_ok_byte_iff, eq_comm]

/-- The words that decode to `CRC8.BUF` are the encodings of its accumulators; which `LEN` stands beside them is no matter. -/
theorem decodesToBuf_iff_mem_range {cmd : Word} :
    (∃ len crc, decode cmd len = .ok (.buf crc len)) ↔ cmd ∈ Set.range fun crc : Byte => encodeCmd (.buf crc 0x00000000#32) := by
  simp [decode_eq_ok_buf_iff, eq_comm, encodeCmd]

theorem natCard_decodesToByte : Nat.card {cmd : Word // ∃ len crc data, decode cmd len = .ok (.byte crc data)} = 65536 := by
  calc Nat.card {cmd : Word // ∃ len crc data, decode cmd len = .ok (.byte crc data)}
    _ = Nat.card (Set.range fun p : Byte × Byte => encodeCmd (.byte p.1 p.2)) :=
      Nat.card_congr (Equiv.subtypeEquivRight fun _ => decodesToByte_iff_mem_range)
    _ = Nat.card (Byte × Byte) := Nat.card_range_of_injective encodeCmd_byte_injective
    _ = 65536 := by rw [Nat.card_prod, natCard_byte]

theorem natCard_decodesToBuf : Nat.card {cmd : Word // ∃ len crc, decode cmd len = .ok (.buf crc len)} = 256 := by
  calc Nat.card {cmd : Word // ∃ len crc, decode cmd len = .ok (.buf crc len)}
    _ = Nat.card (Set.range fun crc : Byte => encodeCmd (.buf crc 0x00000000#32)) :=
      Nat.card_congr (Equiv.subtypeEquivRight fun _ => decodesToBuf_iff_mem_range)
    _ = Nat.card Byte := Nat.card_range_of_injective (encodeCmd_buf_injective _)
    _ = 256 := natCard_byte

end Sys2Proof

namespace Sys2Proof.Machine

/-! ### The bits of a response word (R57) -/

theorem encodeResp_ok_layout (crc : Byte) :
    (encodeResp (.ok crc)).getLsbD 31 = false ∧ (encodeResp (.ok crc)).extractLsb' 8 23 = 0#23 ∧
    (encodeResp (.ok crc)).extractLsb' 0 8 = crc := by
  refine ⟨by simp [encodeResp], ?_, ?_⟩ <;> apply BitVec.eq_of_getLsbD_eq <;> intro i hi
  · simp [encodeResp]
  · simp [encodeResp, hi, show i < 32 by omega]

theorem encodeResp_fault_layout (code : FaultCode) :
    (encodeResp (.fault code)).getLsbD 31 = true ∧ (encodeResp (.fault code)).extractLsb' 16 15 = 0#15 ∧
    (encodeResp (.fault code)).extractLsb' 8 8 = faultCodeByte code ∧ (encodeResp (.fault code)).extractLsb' 0 8 = 0x00#8 := by
  cases code <;> decide

@[simp] theorem resultByte?_encodeResp_ok (crc : Byte) : resultByte? (encodeResp (.ok crc)) = some crc := by
  simp [resultByte?]

@[simp] theorem resultByte?_encodeResp_fault (code : FaultCode) : resultByte? (encodeResp (.fault code)) = none := by
  simp [resultByte?]

/-! ### A word that reads as a response is that response's word (R57, R76) -/

/-- Two words that agree on a field agree on every bit of it. -/
theorem getLsbD_eq_of_field_eq {v w : Word} {start len i : Nat} (h : v.extractLsb' start len = w.extractLsb' start len)
    (hstart : start ≤ i) (hend : i < start + len) : v.getLsbD i = w.getLsbD i := by
  have hbit := congrArg (fun field => field.getLsbD (i - start)) h
  simpa [show i - start < len by omega, show start + (i - start) = i by omega] using hbit

/-- The layout of a result covers the word: bit 31, the reserved bits, the result byte. -/
theorem eq_of_resultLayout {v w : Word} (hbit : v.getLsbD 31 = w.getLsbD 31)
    (hreserved : v.extractLsb' 8 23 = w.extractLsb' 8 23) (hcrc : v.extractLsb' 0 8 = w.extractLsb' 0 8) : v = w := by
  apply BitVec.eq_of_getLsbD_eq
  intro i hi
  obtain h | h | rfl : i < 8 ∨ (8 ≤ i ∧ i < 31) ∨ i = 31 := by omega
  · exact getLsbD_eq_of_field_eq hcrc (Nat.zero_le i) (by omega)
  · exact getLsbD_eq_of_field_eq hreserved h.1 h.2
  · exact hbit

/-- The layout of a fault covers the word: bit 31, the reserved bits, the code, the reserved byte. -/
theorem eq_of_faultLayout {v w : Word} (hbit : v.getLsbD 31 = w.getLsbD 31)
    (hreserved : v.extractLsb' 16 15 = w.extractLsb' 16 15) (hcode : v.extractLsb' 8 8 = w.extractLsb' 8 8)
    (hlow : v.extractLsb' 0 8 = w.extractLsb' 0 8) : v = w := by
  apply BitVec.eq_of_getLsbD_eq
  intro i hi
  obtain h | h | h | rfl : i < 8 ∨ (8 ≤ i ∧ i < 16) ∨ (16 ≤ i ∧ i < 31) ∨ i = 31 := by omega
  · exact getLsbD_eq_of_field_eq hlow (Nat.zero_le i) (by omega)
  · exact getLsbD_eq_of_field_eq hcode h.1 h.2
  · exact getLsbD_eq_of_field_eq hreserved h.1 h.2
  · exact hbit

theorem faultCodeOfByte?_eq_some_iff {b : Byte} {code : FaultCode} :
    faultCodeOfByte? b = some code ↔ b = faultCodeByte code := by
  constructor
  · unfold faultCodeOfByte?
    split
    · rintro ⟨⟩; assumption
    · split
      · rintro ⟨⟩; assumption
      · rintro ⟨⟩
  · rintro rfl
    cases code <;> rfl

theorem decodeResp_eq_ok_iff {w : Word} {crc : Byte} :
    decodeResp w = some (.ok crc) ↔ w.getLsbD 31 = false ∧ w.extractLsb' 8 23 = 0#23 ∧ w.extractLsb' 0 8 = crc := by
  unfold decodeResp
  cases w.getLsbD 31 <;> simp

theorem decodeResp_eq_fault_iff {w : Word} {code : FaultCode} :
    decodeResp w = some (.fault code) ↔
      w.getLsbD 31 = true ∧ w.extractLsb' 16 15 = 0#15 ∧ w.extractLsb' 8 8 = faultCodeByte code ∧ w.extractLsb' 0 8 = 0x00#8 := by
  unfold decodeResp
  cases w.getLsbD 31 <;> simp [faultCodeOfByte?_eq_some_iff, and_assoc, and_comm, and_left_comm]

/-- A word that reads as a response has that response's layout, so it is its word. -/
theorem encodeResp_of_decodeResp {w : Word} {r : Response} (h : decodeResp w = some r) : encodeResp r = w := by
  cases r with
  | ok crc =>
    obtain ⟨hbit, hreserved, hcrc⟩ := decodeResp_eq_ok_iff.1 h
    obtain ⟨hbit', hreserved', hcrc'⟩ := encodeResp_ok_layout crc
    exact eq_of_resultLayout (hbit'.trans hbit.symm) (hreserved'.trans hreserved.symm) (hcrc'.trans hcrc.symm)
  | fault code =>
    obtain ⟨hbit, hreserved, hcode, hlow⟩ := decodeResp_eq_fault_iff.1 h
    obtain ⟨hbit', hreserved', hcode', hlow'⟩ := encodeResp_fault_layout code
    exact eq_of_faultLayout (hbit'.trans hbit.symm) (hreserved'.trans hreserved.symm) (hcode'.trans hcode.symm)
      (hlow'.trans hlow.symm)

end Sys2Proof.Machine

namespace Sys2Proof.Proofs.Encoding

open Sys2Proof Sys2Proof.Machine

/-- Settles O7: a word decodes to an operation exactly when it is the operation's encoding, read from either side. -/
theorem encodeAndDecodeAgree : Obligations.EncodeAndDecodeAgree :=
  ⟨fun _ _ => rfl, fun _ _ => rfl, fun _ _ _ => encodeCmd_of_decode_ok, decode_encodeCmd_byte, decode_encodeCmd_buf⟩

/-- Settles O3: a word matches a format exactly when its fixed fields do, and these are what the decoder tests. -/
theorem decodeMatchesFormats : Obligations.DecodeMatchesFormats := by
  intro cmd len
  refine ⟨matches_byteFormat_iff.trans ⟨fun h => decode_of_byteFormat h len, fun h => ?_⟩,
    matches_bufFormat_iff.trans ⟨fun h => decode_of_bufFormat h len, fun h => ?_⟩⟩
  · exact (eq_encodeCmd_byte_iff.1 (decode_eq_ok_byte_iff.1 h)).1
  · exact (eq_encodeCmd_buf_iff.1 (decode_eq_ok_buf_iff.1 h).1).1

/-- Settles O4: the branches are the decoder's, and the words of each operation are the image of its operands under the encoder. -/
theorem decodeIsThePseudocode : Obligations.DecodeIsThePseudocode := by
  refine ⟨fun cmd len => ⟨fun h => ?_, fun h => ?_, fun hbyte hbuf => ?_⟩, natCard_decodesToByte, natCard_decodesToBuf⟩
  · exact decode_of_byteFormat h len
  · exact decode_of_bufFormat h len
  · exact decode_of_neitherFormat hbyte hbuf len

/-- Settles O6: the error is the answer to a word of neither format, and R52 lists what such a word looks like. -/
theorem illegalWordsExactly : Obligations.IllegalWordsExactly :=
  ⟨fun _ _ => decode_eq_error_iff.trans neitherFormat_iff, fun _ _ _ => eq_illegalOperation_of_decode_error,
    fun _ => decode_eq_error_iff.2 (by decide)⟩

/-- Settles O10: a step delivers the word of a response, and of each kind of response the layout is the encoder's. -/
theorem responseWordLayout : Obligations.ResponseWordLayout := by
  refine ⟨fun s q rest h => ?_, encodeResp_ok_layout, encodeResp_fault_layout, resultByte?_encodeResp_ok,
    resultByte?_encodeResp_fault⟩
  obtain ⟨t, hstep, -, -, hdelivered⟩ := step_delivers h
  exact ⟨t, responseTo s.table q.request, hstep, hdelivered⟩

/-- Settles O11: the reader of response words asks for exactly the layout that the encoder gives. -/
theorem responseWordsRoundTrip : Obligations.ResponseWordsRoundTrip :=
  ⟨decodeResp_encodeResp, fun _ _ => encodeResp_of_decodeResp⟩

/-- Settles O1: the legal words are the encodings of their operations, the illegal ones have neither format. -/
theorem decodeSpecWords : Obligations.DecodeSpecWords := by
  intro len
  refine ⟨decode_encodeCmd_byte 0x00#8 0x00#8 len, decode_encodeCmd_byte 0x12#8 0x34#8 len,
    decode_encodeCmd_byte 0x34#8 0x12#8 len, decode_encodeCmd_byte 0xFF#8 0xFF#8 len, decode_encodeCmd_byte 0xAA#8 0x55#8 len,
    decode_encodeCmd_buf 0xAA#8 len, ?_, ?_, ?_, ?_, ?_, ?_⟩
  all_goals exact decode_eq_error_iff.2 (by decide)

/-- Settles O2: a word that decodes is its operation's encoding, whose `OPC` is the operation's. -/
theorem opcSelectsOperation : Obligations.OpcSelectsOperation := by
  intro cmd len
  refine ⟨fun hopc i hd => ?_, fun hopc i hd => ?_, fun hbyte hbuf i hd => ?_⟩
  · cases i with
    | byte crc data => exact ⟨crc, data, rfl⟩
    | buf crc n => exact absurd (hopc.symm.trans (fieldOpc_of_decode_buf hd)) opcByte_ne_opcBuf
  · cases i with
    | byte crc data => exact absurd ((fieldOpc_of_decode_byte hd).symm.trans hopc) opcByte_ne_opcBuf
    | buf crc n =>
      obtain ⟨-, rfl⟩ := decode_eq_ok_buf_iff.1 hd
      exact ⟨crc, rfl⟩
  · cases i with
    | byte crc data => exact hbyte (fieldOpc_of_decode_byte hd)
    | buf crc n => exact hbuf (fieldOpc_of_decode_buf hd)

/-- Settles O5: the operands are the fields of the encoding that the word is, and the `LEN` word; the two clauses on `LEN` are the two
branches of `CRC8.BUF`. -/
theorem operandsAreTheirFields : Obligations.OperandsAreTheirFields := by
  refine ⟨fun cmd len crc data hd => ?_, fun cmd len crc n hd => ?_, fun crc data len => ?_, fun s q rest crc len h hd => ?_⟩
  · obtain ⟨-, hcrc, hdata⟩ := eq_encodeCmd_byte_iff.1 (decode_eq_ok_byte_iff.1 hd)
    exact ⟨hcrc.symm, hdata.symm⟩
  · obtain ⟨hcmd, hlen⟩ := decode_eq_ok_buf_iff.1 hd
    obtain ⟨-, hcrc⟩ := eq_encodeCmd_buf_iff.1 hcmd
    exact ⟨hcrc.symm, hlen⟩
  · exact ⟨⟨_, decode_encodeCmd_byte crc data len⟩, ⟨_, decode_encodeCmd_buf crc len⟩⟩
  · rw [step_of_decode_ok h hd]
    exact ⟨fun hle => ⟨_, _, execBuf_of_le h hle crc, rfl, rfl⟩, fun hgt => ⟨_, execBuf_of_gt h hgt crc, rfl⟩⟩

/-- Settles O8: by the two forms of an operation, and since only the decoding to `CRC8.BUF` takes `LEN`. -/
theorem lenWordFollowsExactlyForBuf : Obligations.LenWordFollowsExactlyForBuf := by
  refine ⟨fun cmd len i hd => ?_, fun i => ?_, fun cmd len len' h => decode_any_len h len'⟩
  · cases i with
    | byte crc data => exact .inl (by rw [encode, encodeCmd_of_decode_ok hd])
    | buf crc n =>
      obtain ⟨rfl, rfl⟩ := decode_eq_ok_buf_iff.1 hd
      exact .inr rfl
  · cases i <;> simp [encode]

/-- Settles O9: the encoder shifts each field to its place, and four bytes in a row are their fields so shifted. -/
theorem encoderIsTheConcatenation : Obligations.EncoderIsTheConcatenation := by
  refine ⟨fun crc data => ?_, fun crc len => ?_⟩ <;> rw [append_eq_fields] <;> simp [encodeCmd]

/-- Settles O29, by the branch of the step for a word that decodes. -/
theorem stepRunsDecodedOperation : Obligations.StepRunsDecodedOperation :=
  fun _ _ _ _ => step_of_decode_ok

end Sys2Proof.Proofs.Encoding

/-! The statements of spec/40_crc8_update.md: the answers to the two requests as bytes (`answerAlone_byteRequest`, `answerAlone_bufRequest`),
the accumulator after each byte of a port (`accAfter`), which the pseudocode and the hidden steps share, and the frame of an operation. -/

namespace Sys2Proof.Machine

/-- The word of a result (R57). -/
theorem encodeResp_ok (crc : Byte) : encodeResp (.ok crc) = crc.setWidth 32 := rfl

/-! ### The byte step (R60, R61) -/

theorem update_comm (T : Table) (c d : Byte) : update T c d = update T d c := by
  rw [update, update, BitVec.xor_comm]

theorem update_zero_left (T : Table) (d : Byte) : update T 0x00#8 d = tableRead T d := by
  rw [update, BitVec.zero_xor]

/-- XOR of both operands with one value leaves the table index as it is. -/
theorem update_xor_both (T : Table) (c d k : Byte) : update T (c ^^^ k) (d ^^^ k) = update T c d := by
  have hindex : (c ^^^ k) ^^^ (d ^^^ k) = c ^^^ d := by
    rw [BitVec.xor_comm d k, BitVec.xor_assoc, ← BitVec.xor_assoc k k d, BitVec.xor_self, BitVec.zero_xor]
  rw [update, update, hindex]

theorem responseTo_byteRequest (T : Table) (crc data : Byte) :
    responseTo T (byteRequest crc data) = .ok (update T crc data) :=
  responseTo_of_decode_byte (r := byteRequest crc data) (decode_encodeCmd_byte crc data _) T

theorem answerAlone_byteRequest (T : Table) (crc data : Byte) :
    answerAlone T (byteRequest crc data) = some ((update T crc data).setWidth 32) := by
  rw [answerAlone_eq, responseTo_byteRequest, encodeResp_ok]

/-! ### The answer to a `CRC8.BUF` request (R62, R66) -/

theorem answerAlone_bufRequest {len : Word} {buf : List Byte} (hl : len.toNat ≤ buf.length) (T : Table) (crc : Byte) :
    answerAlone T (bufRequest crc len buf) = some ((updateAll T crc (bufBytes buf len)).setWidth 32) := by
  rw [answerAlone_eq, responseTo_bufRequest hl, encodeResp_ok]

theorem answerAlone_bufRequest_of_gt {len : Word} {buf : List Byte} (hl : buf.length < len.toNat) (T : Table) (crc : Byte) :
    answerAlone T (bufRequest crc len buf) = some 0x80000200#32 := by
  have hfault : responseTo T (bufRequest crc len buf) = .fault .bufferOverrun :=
    responseTo_of_decode_buf_of_gt (r := bufRequest crc len buf) (decode_encodeCmd_buf crc len) hl T
  rw [answerAlone_eq, hfault, encodeResp_bufferOverrun]

theorem word_toNat_ofNat {n : Nat} (h : n < 2 ^ 32) : (BitVec.ofNat 32 n).toNat = n := by
  rw [BitVec.toNat_ofNat, Nat.mod_eq_of_lt h]

/-- A `LEN` word made of the length of the port takes the whole port. -/
theorem responseTo_bufRequest_whole {bytes : List Byte} (hfits : bytes.length < 2 ^ 32) (T : Table) (crc : Byte) :
    responseTo T (bufRequest crc (BitVec.ofNat 32 bytes.length) bytes) = .ok (updateAll T crc bytes) := by
  have hlen : (BitVec.ofNat 32 bytes.length).toNat = bytes.length := word_toNat_ofNat hfits
  rw [responseTo_bufRequest hlen.le, bufBytes, hlen, List.take_length]

theorem answerAlone_bufRequest_whole {bytes : List Byte} (hfits : bytes.length < 2 ^ 32) (T : Table) (crc : Byte) :
    answerAlone T (bufRequest crc (BitVec.ofNat 32 bytes.length) bytes) = some ((updateAll T crc bytes).setWidth 32) := by
  rw [answerAlone_eq, responseTo_bufRequest_whole hfits, encodeResp_ok]

/-- The first `n` bytes are the first `k` and then the first `n - k` of the others. -/
theorem bufBytes_split (buf : List Byte) {k n : Word} (h : k ≤ n) :
    bufBytes buf n = bufBytes buf k ++ bufBytes (buf.drop k.toNat) (n - k) := by
  rw [bufBytes, bufBytes, bufBytes, BitVec.toNat_sub_of_le h, ← List.take_add, Nat.add_sub_cancel' h]

/-! ### The accumulator after each byte, and the hidden steps (R62, R67) -/

/-- The accumulator after the first `i` bytes of a port. -/
def accAfter (T : Table) (crc : Byte) (buf : List Byte) (i : Nat) : Byte := updateAll T crc (buf.take i)

theorem accAfter_zero (T : Table) (crc : Byte) (buf : List Byte) : accAfter T crc buf 0 = crc := by
  rw [accAfter, List.take_zero, updateAll_nil]

theorem accAfter_succ (T : Table) (crc : Byte) {buf : List Byte} {i : Nat} (h : i < buf.length) :
    accAfter T crc buf (i + 1) = update T (accAfter T crc buf i) buf[i] := by
  rw [accAfter, accAfter, List.take_succ_eq_append_getElem h, updateAll_append, updateAll_cons, updateAll_nil]

/-- The internal state of R24 after `i` byte steps from `crc`. -/
def foldAt (T : Table) (crc : Byte) (buf : List Byte) (i : Nat) : FoldState := ⟨accAfter T crc buf i, BitVec.ofNat 32 i⟩

theorem foldAt_zero (T : Table) (crc : Byte) (buf : List Byte) : foldAt T crc buf 0 = foldStart crc := by
  rw [foldAt, accAfter_zero]; rfl

/-- A byte step is possible below `AVAIL`, where the 32-bit index has not wrapped, and takes the next byte. -/
theorem foldStep_foldAt (T : Table) (crc : Byte) {buf : List Byte} {i : Nat} (hread : i < buf.length) (hindex : i < 2 ^ 32) :
    foldStep T buf (foldAt T crc buf i) = some (foldAt T crc buf (i + 1)) := by
  have hbyte : bufRead buf (foldAt T crc buf i).index.toNat = some buf[i] := by
    rw [foldAt, word_toNat_ofNat hindex, bufRead, List.getElem?_eq_getElem hread]
  rw [foldStep, hbyte, foldAt, foldAt, accAfter_succ T crc hread, BitVec.ofNat_add]

theorem foldSteps_foldAt (T : Table) (crc : Byte) {buf : List Byte} {n i : Nat} (hread : i + n ≤ buf.length)
    (hindex : i + n < 2 ^ 32) : foldSteps T buf n (foldAt T crc buf i) = some (foldAt T crc buf (i + n)) := by
  induction n generalizing i with
  | zero => rfl
  | succ n ih =>
    rw [foldSteps, foldStep_foldAt T crc (by omega) (by omega)]
    simp only
    rw [ih (by omega) (by omega), Nat.add_right_comm, Nat.add_assoc]

/-! ### The caller's loop (R63) -/

/-- A call gets the response of its request, whatever waits before it, and the table stays. -/
theorem call_eq (caller : Nat) (r : Request) (s : State) :
    ∃ t, call caller r s = some (encodeResp (responseTo s.table r), t) ∧ t.table = s.table := by
  obtain ⟨t, hserve, -, hdelivered⟩ := serveAll_delivers (present caller r s)
  have htable : t.table = (present caller r s).table := run_table hserve
  refine ⟨t, ?_, htable⟩
  simp [call, hserve, hdelivered, deliveryFor]

theorem byteLoop_eq (caller : Nat) (acc : Byte) (bytes : List Byte) (s : State) :
    ∃ t, byteLoop caller acc bytes s = some (updateAll s.table acc bytes, t) := by
  induction bytes generalizing acc s with
  | nil => exact ⟨s, rfl⟩
  | cons b bytes ih =>
    obtain ⟨u, hcall, htable⟩ := call_eq caller (byteRequest acc b) s
    rw [responseTo_byteRequest] at hcall
    obtain ⟨t, hloop⟩ := ih (update s.table acc b) u
    refine ⟨t, ?_⟩
    simp [byteLoop, hcall, hloop, htable, updateAll_cons]

/-! ### What an operation can do (R59) -/

/-- All that running an operation can do: respond with a result, or, for a `CRC8.BUF` beyond its bound, raise the overrun. -/
theorem exec_outcomes (i : Instr) (s : State) :
    (∃ crc, exec i s = .next (respond (.ok crc) s)) ∨
    (∃ crc len, i = .buf crc len ∧ (bufferPort s).length < len.toNat ∧
      exec i s = .next (raise (.bufferOverrun (commandInProgress s) len (bufferPort s).length) s)) := by
  cases i with
  | byte crc data => exact .inl ⟨_, rfl⟩
  | buf crc len =>
    obtain hl | hl := Nat.lt_or_ge (bufferPort s).length len.toNat
    · exact .inr ⟨crc, len, rfl, hl, if_pos hl⟩
    · exact .inl ⟨_, if_neg (Nat.not_lt.2 hl)⟩

/-- A response is added to those delivered, for the caller of the request in progress; none where there is no request. -/
theorem respond_delivered (r : Response) (s : State) :
    (respond r s).delivered = s.delivered ++ (s.pending.take 1).map fun q => ⟨q.caller, encodeResp r⟩ := by
  cases h : s.pending with
  | nil => simp [respond_of_waiting h]
  | cons q rest => simp [respond_of_pending h]

theorem raise_delivered (f : Fault) (s : State) :
    (raise f s).delivered =
      s.delivered ++ (s.pending.take 1).map fun q => ⟨q.caller, encodeResp (.fault (faultCodeOf f))⟩ := by
  cases h : s.pending with
  | nil => simp [raise_of_waiting h]
  | cons q rest => simp [raise_of_pending h]

end Sys2Proof.Machine

namespace Sys2Proof.Proofs.Crc8Update

open Sys2Proof Sys2Proof.Machine

/-- Settles O16: the format-L word decodes to `CRC8.BUF`, and the accumulators are `accAfter`, one byte step apart. -/
theorem bufFollowsThePseudocode : Obligations.BufFollowsThePseudocode := by
  intro s q rest crc h hcmd
  have hdecode : decode q.request.cmd q.request.len = .ok (.buf crc q.request.len) := decode_eq_ok_buf_iff.2 ⟨hcmd, rfl⟩
  rw [step_of_decode_ok h hdecode]
  refine ⟨fun hgt => ?_, fun hle => ⟨accAfter s.table crc q.request.buf, accAfter_zero _ _ _, fun i hi _ => ?_, ?_⟩⟩
  · rw [← encodeResp_bufferOverrun]
    exact execBuf_of_gt h hgt crc
  · exact accAfter_succ s.table crc hi
  · exact execBuf_of_le h hle crc

/-- Settles O20: the loop ends with the fold of its bytes, and the one request is answered with it. -/
theorem byteLoopEqualsBuf : Obligations.ByteLoopEqualsBuf := by
  intro s caller crc0 bytes hfits
  obtain ⟨t, hloop⟩ := byteLoop_eq caller crc0 bytes s
  obtain ⟨t', hcall, -⟩ := call_eq caller (bufRequest crc0 (BitVec.ofNat 32 bytes.length) bytes) s
  rw [responseTo_bufRequest_whole hfits] at hcall
  exact ⟨_, t, t', hloop, hcall⟩

/-- Settles O21: the bytes split at `k`, and the fold over two parts is the fold of the second from that of the first. -/
theorem bufSplitInvariance : Obligations.BufSplitInvariance := by
  intro T crc0 buf k n hkn hn
  have hk : k.toNat ≤ n.toNat := hkn
  have hrest : (n - k).toNat ≤ (buf.drop k.toNat).length := by
    rw [BitVec.toNat_sub_of_le hkn, List.length_drop]; omega
  refine ⟨_, _, answerAlone_bufRequest (hk.trans hn) T crc0, answerAlone_bufRequest hrest T _, ?_⟩
  rw [answerAlone_bufRequest hn, bufBytes_split buf hkn, updateAll_append]

/-- Settles O22: the fold up to the checksum is the checksum, and the last byte step cancels it. -/
theorem verifyOnReceive : Obligations.VerifyOnReceive := by
  intro T c m hfits
  refine ⟨_, answerAlone_bufRequest_whole (by omega) T c, ?_⟩
  have hlength : m.length + 1 = (m ++ [updateAll T c m]).length := by simp
  rw [hlength] at hfits ⊢
  rw [answerAlone_bufRequest_whole hfits, updateAll_append, updateAll_cons, updateAll_nil, update_self]
  rfl

/-- Settles O24: from `foldAt 0` the steps reach `foldAt LEN`, whose accumulator is the fold that the one transition delivers. -/
theorem bufHiddenStepsAgree : Obligations.BufHiddenStepsAgree := by
  intro s q rest crc len h hle
  have hsteps := foldSteps_foldAt s.table crc (i := 0) (by simpa using hle) (by simpa using len.isLt)
  rw [foldAt_zero, Nat.zero_add] at hsteps
  have hindex : BitVec.ofNat 32 len.toNat = len := (BitVec.ofNat_toNat 32 len).trans (BitVec.setWidth_eq len)
  exact ⟨_, hsteps, hindex, execBuf_of_le h hle crc⟩

/-- Settles O27: an operation responds or raises the overrun, and each of these has its frame. -/
theorem execFrame : Obligations.ExecFrame := by
  intro i s t hexec
  obtain ⟨crc, hok⟩ | ⟨crc, len, rfl, hl, hfault⟩ := exec_outcomes i s
  · rw [hok] at hexec
    cases hexec
    exact ⟨respond_table _ s, fun idx => by rw [respond_table], respond_pending _ s, ⟨_, respond_delivered _ s, List.map_map⟩,
      .inl (respond_faultRecord _ s)⟩
  · rw [hfault] at hexec
    cases hexec
    refine ⟨raise_table _ s, fun idx => by rw [raise_table], raise_pending _ s, ⟨_, raise_delivered _ s, List.map_map⟩, ?_⟩
    cases h : s.pending with
    | nil => exact .inl (by rw [raise_of_waiting h])
    | cons q rest =>
      rw [bufferPort_of_pending h] at hl
      refine .inr ⟨crc, len, q, rfl, rfl, hl, ?_⟩
      rw [raise_of_pending h, bufferPort_of_pending h, commandInProgress_of_pending h]

/-- Settles O13: the operation responds with the table entry, and the format-B word decodes to it. -/
theorem byteAnswersTheTableEntry : Obligations.ByteAnswersTheTableEntry := by
  intro s q rest crc data h
  exact ⟨execByte_of_pending h crc data, fun hcmd => step_of_decode_ok h (decode_eq_ok_byte_iff.2 hcmd)⟩

/-- Settles O14: each law is one of the byte step, which is what the response holds. -/
theorem byteLaws : Obligations.ByteLaws := by
  intro T c d k
  simp only [answerAlone_byteRequest]
  refine ⟨?_, ?_, ?_, ?_, ?_, ?_⟩
  · rw [update_comm]
  · rw [update_self]; rfl
  · rw [update_zero_left]
  · rw [update_comm, update_zero_left]
  · rw [update_xor_both]
  · rw [update_comm]; rfl

/-- Settles O15, by the branch of `CRC8.BUF` within its bound. -/
theorem bufAnswersTheFold : Obligations.BufAnswersTheFold :=
  fun _ _ _ crc _ h hle => execBuf_of_le h hle crc

/-- Settles O18: no byte is taken, and every port is long enough for none. -/
theorem bufOfZeroLength : Obligations.BufOfZeroLength :=
  fun T crc buf => answerAlone_bufRequest (len := 0#32) (Nat.zero_le buf.length) T crc

/-- Settles O19: one byte is taken, and the fold of one byte is the byte step. -/
theorem bufOfOneByte : Obligations.BufOfOneByte := by
  intro T crc b more
  have hl : (1#32 : Word).toNat ≤ (b :: more).length := Nat.le_add_left 1 more.length
  rw [answerAlone_bufRequest hl, answerAlone_byteRequest]
  rfl

/-- Settles O25: the response is the word of the fault, whatever the table and `crc` are, and that word reads as no result. -/
theorem noPartialResult : Obligations.NoPartialResult := by
  refine ⟨fun T crc len buf hl => answerAlone_bufRequest_of_gt hl T crc, ?_⟩
  rw [← encodeResp_bufferOverrun, resultByte?_encodeResp_fault]

end Sys2Proof.Proofs.Crc8Update

/-! The statements of spec/60_exceptions.md. What a request raises is a function of the request alone (`faultOf?`), and any number of steps
serve as many requests: each gets its response and, where it raises a fault, its entry of the fault record (`run_eq`). The statements are
read off that one equation, for all callers or, through the filters of Safety.lean, for one (`deliveriesTo_of_serveAll`). -/

namespace Sys2Proof.Machine

/-! ### The fault that a request raises (R74, R75, R77) -/

/-- The fault a request raises, from the request alone: no table, no caller and no other request has a part in it. -/
def faultOf? (r : Request) : Option Fault :=
  match decode r.cmd r.len with
  | .error _ => some (.illegalOperation r.cmd)
  | .ok (.byte _ _) => none
  | .ok (.buf _ len) => if r.buf.length < len.toNat then some (.bufferOverrun r.cmd len r.buf.length) else none

/-- The entry of the fault record for a request that waits, under its caller; none where it raises no fault. -/
def faultEntryFor? (q : Issued) : Option FaultEntry := (faultOf? q.request).map fun f => ⟨q.caller, f⟩

/-- A request gets a result and raises no fault, or it raises a fault and gets the fault response with its code. -/
theorem responseTo_cases (T : Table) (r : Request) :
    (∃ crc, responseTo T r = .ok crc ∧ faultOf? r = none) ∨
    (∃ f, responseTo T r = .fault (faultCodeOf f) ∧ faultOf? r = some f) := by
  unfold faultOf?
  cases hd : decode r.cmd r.len with
  | error e => exact .inr ⟨.illegalOperation r.cmd, responseTo_of_decode_error hd T, rfl⟩
  | ok i =>
    cases i with
    | byte crc data => exact .inl ⟨_, responseTo_of_decode_byte hd T, rfl⟩
    | buf crc len =>
      obtain hl | hl := Nat.lt_or_ge r.buf.length len.toNat
      · exact .inr ⟨.bufferOverrun r.cmd len r.buf.length, responseTo_of_decode_buf_of_gt hd hl T, if_pos hl⟩
      · exact .inl ⟨_, responseTo_of_decode_buf_of_le hd hl T, if_neg (Nat.not_lt.2 hl)⟩

/-- A request raises no fault exactly when it gets a result, from any table. -/
theorem faultEntryFor?_eq_none_iff (T : Table) {q : Issued} :
    faultEntryFor? q = none ↔ ∃ crc, responseTo T q.request = .ok crc := by
  rw [faultEntryFor?, Option.map_eq_none_iff]
  obtain ⟨crc, hok, hnone⟩ | ⟨f, hfault, hsome⟩ := responseTo_cases T q.request
  · simp [hok, hnone]
  · simp [hfault, hsome]

/-- The entry of a request and its delivery name the same code, to the same caller (R82). -/
theorem map_faultReported_faultEntryFor? (T : Table) (q : Issued) :
    (faultEntryFor? q).map faultReported = faultDelivered? (deliveryFor T q) := by
  unfold faultEntryFor? deliveryFor faultDelivered?
  obtain ⟨crc, hok, hnone⟩ | ⟨f, hfault, hsome⟩ := responseTo_cases T q.request
  · simp [hok, hnone]
  · simp [hfault, hsome, faultReported]

/-- What a request raises (R74, R75) is its fault, and the word is that of the fault response. -/
theorem faultOf?_of_raises {r : Request} {f : Fault} {w : Word} (h : Raises r f w) :
    faultOf? r = some f ∧ w = encodeResp (.fault (faultCodeOf f)) := by
  unfold faultOf?
  obtain ⟨hillegal, rfl, rfl⟩ | ⟨⟨crc, hd⟩, hl, rfl, rfl⟩ := h
  · refine ⟨?_, encodeResp_illegalOperation.symm⟩
    cases hd : decode r.cmd r.len with
    | error e => rfl
    | ok i => exact absurd hd (hillegal i)
  · rw [hd]
    exact ⟨if_pos hl, encodeResp_bufferOverrun.symm⟩

theorem faultEntryFor?_of_raises {q : Issued} {f : Fault} {w : Word} (h : Raises q.request f w) :
    faultEntryFor? q = some ⟨q.caller, f⟩ := by
  rw [faultEntryFor?, (faultOf?_of_raises h).1, Option.map_some]

theorem deliveryFor_of_raises {q : Issued} {f : Fault} {w : Word} (h : Raises q.request f w) (T : Table) :
    deliveryFor T q = ⟨q.caller, w⟩ := by
  obtain ⟨hfault, rfl⟩ := faultOf?_of_raises h
  obtain ⟨crc, -, hnone⟩ | ⟨g, hresponse, hsome⟩ := responseTo_cases T q.request
  · simp [hfault] at hnone
  · cases hfault.symm.trans hsome
    rw [deliveryFor, hresponse]

/-! ### Any number of steps, as one equation (R73, R82) -/

/-- The state after the first `n` requests that wait are served, each with its response and its entry of the fault record. -/
def serveFirst (n : Nat) (s : State) : State where
  table := s.table
  pending := s.pending.drop n
  delivered := s.delivered ++ (s.pending.take n).map (deliveryFor s.table)
  faultRecord := s.faultRecord ++ (s.pending.take n).filterMap faultEntryFor?

@[simp] theorem serveFirst_table (n : Nat) (s : State) : (serveFirst n s).table = s.table := rfl
@[simp] theorem serveFirst_pending (n : Nat) (s : State) : (serveFirst n s).pending = s.pending.drop n := rfl
@[simp] theorem serveFirst_delivered (n : Nat) (s : State) :
    (serveFirst n s).delivered = s.delivered ++ (s.pending.take n).map (deliveryFor s.table) := rfl
@[simp] theorem serveFirst_faultRecord (n : Nat) (s : State) :
    (serveFirst n s).faultRecord = s.faultRecord ++ (s.pending.take n).filterMap faultEntryFor? := rfl

theorem serveFirst_of_waiting {s : State} (h : s.pending = []) (n : Nat) : serveFirst n s = s := by
  cases s
  cases h
  simp [serveFirst]

theorem serveFirst_zero (s : State) : serveFirst 0 s = s := by
  simp [serveFirst]

/-- To serve the first `n` and then the next `m` is to serve the first `n + m`. -/
theorem serveFirst_serveFirst (n m : Nat) (s : State) : serveFirst m (serveFirst n s) = serveFirst (n + m) s := by
  simp [serveFirst, List.take_add]

/-- One step serves the first request that waits, and nothing where none waits. -/
theorem step_eq (s : State) : step s = .next (serveFirst 1 s) := by
  obtain ⟨hwait, hstep⟩ | ⟨q, rest, h, -⟩ := step_cases s
  · rw [hstep, serveFirst_of_waiting hwait]
  obtain ⟨crc, hok⟩ | ⟨f, hf, hfault⟩ := step_of_pending h
  · obtain ⟨t, hstep, -, -, hdelivered⟩ := step_delivers h
    rw [hok] at hstep
    cases hstep
    have hdelivery : deliveryFor s.table q = ⟨q.caller, encodeResp (.ok crc)⟩ := by
      simpa [respond_of_pending h] using hdelivered.symm
    have hentry : faultEntryFor? q = none := by
      have hreported := map_faultReported_faultEntryFor? s.table q
      rw [hdelivery] at hreported
      simpa [faultDelivered?] using hreported
    rw [hok, respond_of_pending h]
    simp [serveFirst, h, hdelivery, hentry]
  · rw [hfault, raise_of_pending h]
    simp [serveFirst, h, deliveryFor_of_raises hf, faultEntryFor?_of_raises hf]

/-- `n` steps serve the first `n` requests that wait. -/
theorem run_eq (n : Nat) (s : State) : Host.Core.run Sys2Proof.core n s = .next (serveFirst n s) := by
  induction n generalizing s with
  | zero => rw [serveFirst_zero]; rfl
  | succ n ih =>
    refine run_succ_eq_next_iff.2 ⟨_, step_eq s, ?_⟩
    rw [ih, serveFirst_serveFirst, Nat.add_comm]

theorem serveAll_eq (s : State) : serveAll s = .next (serveFirst s.pending.length s) := run_eq _ s

/-- What a run records is, code by code and caller by caller, what it delivers of faults (R82). -/
theorem map_faultReported_filterMap_faultEntryFor? (T : Table) (served : List Issued) :
    (served.filterMap faultEntryFor?).map faultReported = (served.map (deliveryFor T)).filterMap faultDelivered? := by
  rw [List.map_filterMap, List.filterMap_map]
  exact congrArg (served.filterMap ·) (funext (map_faultReported_faultEntryFor? T))

/-! ### A response word by its kind (R57, R76) -/

theorem encodeResp_bit31_or_code (r : Response) :
    (encodeResp r).getLsbD 31 = false ∨ (encodeResp r).extractLsb' 8 8 = 0x01#8 ∨ (encodeResp r).extractLsb' 8 8 = 0x02#8 := by
  cases r with
  | ok crc =>
    obtain ⟨hbit, -, -⟩ := encodeResp_ok_layout crc
    exact .inl hbit
  | fault code => cases code <;> decide

/-- A legal word with bit 31 clear is a result, and it reports no fault. -/
theorem resultByte?_isSome_iff_bit31 {w : Word} (h : (decodeResp w).isSome) :
    (resultByte? w).isSome ↔ w.getLsbD 31 = false := by
  obtain ⟨r, hr⟩ := Option.isSome_iff_exists.1 h
  rw [← encodeResp_of_decodeResp hr]
  cases r with
  | ok crc =>
    obtain ⟨hbit, -, -⟩ := encodeResp_ok_layout crc
    simp only [resultByte?_encodeResp_ok, hbit, Option.isSome_some]
  | fault code =>
    obtain ⟨hbit, -, -, -⟩ := encodeResp_fault_layout code
    simp [resultByte?_encodeResp_fault, hbit, -BitVec.getLsbD_eq_getElem]

theorem reportedFault?_of_result {w : Word} (h : (resultByte? w).isSome) : reportedFault? w = none := by
  unfold resultByte? at h
  unfold reportedFault?
  cases hd : decodeResp w with
  | none => rfl
  | some r => cases r <;> simp_all

theorem encodeResp_injective : Function.Injective encodeResp := by
  intro r r' h
  have hdecode := congrArg decodeResp h
  rw [decodeResp_encodeResp, decodeResp_encodeResp] at hdecode
  exact Option.some.inj hdecode

/-- A request gets a result exactly when its answer, taken alone, is a result's word. -/
theorem answerAlone_eq_ok_iff {T : Table} {r : Request} {crc : Byte} :
    answerAlone T r = some (encodeResp (.ok crc)) ↔ responseTo T r = .ok crc := by
  rw [answerAlone_eq, Option.some_inj, encodeResp_injective.eq_iff]

theorem resultByte?_deliveryFor_isSome_iff {T : Table} {q : Issued} :
    (resultByte? (deliveryFor T q).resp).isSome ↔ ∃ crc, responseTo T q.request = .ok crc := by
  unfold deliveryFor
  cases responseTo T q.request <;> simp

/-! ### What one caller gets when all that waits is served (R85, R88) -/

section
variable {s t : State} (h : serveAll s = .next t) (caller : Nat)
include h

theorem eq_serveFirst_of_serveAll : t = serveFirst s.pending.length s := by
  rw [serveAll_eq] at h
  cases h; rfl

theorem pending_of_serveAll : t.pending = [] := by
  rw [eq_serveFirst_of_serveAll h, serveFirst_pending, List.drop_length]

theorem requestsOf_of_serveAll : requestsOf caller t = [] := by
  rw [requestsOf, pending_of_serveAll h, List.filter_nil]

theorem ended_of_serveAll : ended caller t = true := by
  rw [ended, requestsOf_of_serveAll h, List.isEmpty_nil]

theorem deliveriesTo_of_serveAll :
    deliveriesTo caller t = deliveriesTo caller s ++ (requestsOf caller s).map (deliveryFor s.table) := by
  rw [eq_serveFirst_of_serveAll h, deliveriesTo, serveFirst_delivered, List.take_length, List.filter_append, List.filter_map]
  rfl

theorem faultsOf_of_serveAll :
    faultsOf caller t = faultsOf caller s ++ (requestsOf caller s).filterMap faultEntryFor? := by
  have hcaller (q : Issued) : (faultEntryFor? q).filter (fun e => e.caller == caller) =
      if q.caller == caller then faultEntryFor? q else none := by
    unfold faultEntryFor?
    cases faultOf? q.request <;> simp [Option.filter]
  rw [eq_serveFirst_of_serveAll h, faultsOf, serveFirst_faultRecord, List.take_length, List.filter_append,
    List.filter_filterMap, requestsOf, List.filterMap_filter]
  simp only [hcaller]
  rfl

theorem observation_of_serveAll :
    observation caller t = observation caller s ++
      (requestsOf caller s).filterMap fun q => resultByte? (encodeResp (responseTo s.table q.request)) := by
  rw [observation, deliveriesTo_of_serveAll h, List.filterMap_append, List.filterMap_map]
  rfl

end

/-! ### The success of one caller's run (R88) -/

theorem succeeded_iff {caller : Nat} {s : State} :
    succeeded caller s = true ↔
      requestsOf caller s = [] ∧ (∀ d ∈ deliveriesTo caller s, (resultByte? d.resp).isSome) ∧ faultsOf caller s = [] := by
  simp [succeeded, ended, and_assoc]

theorem allSucceeded_iff {s : State} :
    allSucceeded s = true ↔ s.pending = [] ∧ (∀ d ∈ s.delivered, (resultByte? d.resp).isSome) ∧ s.faultRecord = [] := by
  simp [allSucceeded, and_assoc]

/-- What holds of the items of each caller holds of all items. -/
theorem forall_caller_mem_filter {α : Type} {callerOf : α → Nat} {P : α → Prop} {l : List α} :
    (∀ caller, ∀ x ∈ l.filter (fun x => callerOf x == caller), P x) ↔ ∀ x ∈ l, P x := by
  simp only [List.mem_filter, beq_iff_eq]
  exact ⟨fun h x hx => h _ x ⟨hx, rfl⟩, fun h _ x hx => h x hx.1⟩

/-- There is no item exactly when no caller has one. -/
theorem forall_caller_filter_eq_nil {α : Type} {callerOf : α → Nat} {l : List α} :
    (∀ caller, l.filter (fun x => callerOf x == caller) = []) ↔ l = [] := by
  simp only [List.eq_nil_iff_forall_not_mem (l := l), List.eq_nil_iff_forall_not_mem (l := l.filter _)]
  exact forall_caller_mem_filter (P := fun _ => False)

/-- All runs together have succeeded exactly when each caller's has. -/
theorem allSucceeded_iff_forall_succeeded {s : State} : allSucceeded s = true ↔ ∀ caller, succeeded caller s = true := by
  simp only [succeeded_iff, allSucceeded_iff, forall_and]
  exact and_congr forall_caller_filter_eq_nil.symm
    (and_congr forall_caller_mem_filter.symm forall_caller_filter_eq_nil.symm)

/-- Where the record is complete, a caller whose responses are all results has no entry in it (R82). -/
theorem Inv.faultsOf_eq_nil {s : State} (hs : Inv s) {caller : Nat}
    (hresults : ∀ d ∈ deliveriesTo caller s, (resultByte? d.resp).isSome) : faultsOf caller s = [] := by
  refine List.eq_nil_iff_forall_not_mem.2 fun e he => ?_
  obtain ⟨hmem, hcaller⟩ := List.mem_filter.1 he
  have hdelivered : faultReported e ∈ s.delivered.filterMap faultDelivered? :=
    hs.recordComplete ▸ List.mem_map_of_mem hmem
  obtain ⟨d, hd, hfault⟩ := List.mem_filterMap.1 hdelivered
  obtain ⟨code, hcode, hpair⟩ := Option.map_eq_some_iff.1 hfault
  have hsame : d.caller = e.caller := congrArg Prod.fst hpair
  have hresult := hresults d (List.mem_filter.2 ⟨hd, by rwa [hsame]⟩)
  rw [reportedFault?_of_result hresult] at hcode
  cases hcode

/-- Where the invariant holds, success is read off the caller's requests and response words alone. -/
theorem Inv.succeeded_iff {s : State} (hs : Inv s) (caller : Nat) :
    succeeded caller s = true ↔ requestsOf caller s = [] ∧ ∀ d ∈ deliveriesTo caller s, d.resp.getLsbD 31 = false := by
  have hbit (d : Delivery) (hd : d ∈ deliveriesTo caller s) : (resultByte? d.resp).isSome ↔ d.resp.getLsbD 31 = false :=
    resultByte?_isSome_iff_bit31 (hs.responsesLegal d (List.mem_filter.1 hd).1)
  rw [Machine.succeeded_iff, ← forall₂_congr hbit]
  exact and_congr_right fun _ => ⟨And.left, fun hresults => ⟨hresults, hs.faultsOf_eq_nil hresults⟩⟩

/-! ### The checksum that a caller observes (R88, R63) -/

/-- After a call of `CRC8.BYTE` the caller's run has ended, and the byte it answers is the last one the caller observes. -/
theorem call_byteRequest (caller : Nat) (crc data : Byte) (s : State) :
    ∃ t, call caller (byteRequest crc data) s = some (encodeResp (.ok (update s.table crc data)), t) ∧
      ended caller t = true ∧ finalChecksum caller t = some (update s.table crc data) := by
  obtain ⟨t, hserve, -, hdelivered⟩ := serveAll_delivers (present caller (byteRequest crc data) s)
  refine ⟨t, ?_, ended_of_serveAll hserve caller, ?_⟩
  · simp [call, hserve, hdelivered, deliveryFor, responseTo_byteRequest]
  · have hlast : requestsOf caller (present caller (byteRequest crc data) s) =
        requestsOf caller s ++ [⟨caller, byteRequest crc data⟩] := by
      simp [requestsOf]
    rw [finalChecksum, observation_of_serveAll hserve, hlast]
    simp [responseTo_byteRequest]

/-- After its first byte the loop goes on from a state whose last observed byte is the accumulator. -/
theorem byteLoop_cons (caller : Nat) (acc b : Byte) (bytes : List Byte) (s : State) :
    ∃ u, byteLoop caller acc (b :: bytes) s = byteLoop caller (update s.table acc b) bytes u ∧
      ended caller u = true ∧ finalChecksum caller u = some (update s.table acc b) := by
  obtain ⟨u, hcall, hended, hlast⟩ := call_byteRequest caller acc b s
  exact ⟨u, by simp [byteLoop, hcall], hended, hlast⟩

/-- A loop from a state whose last observed byte is the accumulator ends in such a state. -/
theorem byteLoop_keeps_finalChecksum {caller : Nat} {acc crc : Byte} {bytes : List Byte} {s t : State}
    (hended : ended caller s = true) (hlast : finalChecksum caller s = some acc)
    (hloop : byteLoop caller acc bytes s = some (crc, t)) : ended caller t = true ∧ finalChecksum caller t = some crc := by
  induction bytes generalizing acc s with
  | nil =>
    cases hloop
    exact ⟨hended, hlast⟩
  | cons b bytes ih =>
    obtain ⟨u, hcons, hended', hlast'⟩ := byteLoop_cons caller acc b bytes s
    exact ih hended' hlast' (hcons ▸ hloop)

/-! ### An illegal word, and an operation that faults (R74, R77) -/

/-- A request whose command word does not decode takes `IllegalOperation`, whatever its `LEN` and its port are (R74). -/
theorem step_takes_illegalOperation {s : State} {q : Issued} {rest : List Issued} {e : DecodeError} (h : s.pending = q :: rest)
    (hd : decode q.request.cmd q.request.len = .error e) :
    step s = .next { s with
      pending := rest
      delivered := s.delivered ++ [⟨q.caller, 0x80000100#32⟩]
      faultRecord := s.faultRecord ++ [⟨q.caller, .illegalOperation q.request.cmd⟩] } := by
  cases eq_illegalOperation_of_decode_error hd
  rw [step_of_decode_error h hd, raiseDecodeError, raise_of_pending h, faultCodeOf, encodeResp_illegalOperation]

/-- `CRC8.BUF` leaves the record exactly when `LEN` is within `AVAIL`: the accumulator, the bytes and the table have no part in it. -/
theorem exec_buf_faultRecord_eq_iff {s t : State} {q : Issued} {rest : List Issued} {crc : Byte} {len : Word}
    (h : s.pending = q :: rest) (hexec : exec (.buf crc len) s = .next t) :
    t.faultRecord = s.faultRecord ↔ len.toNat ≤ q.request.buf.length := by
  rw [exec] at hexec
  obtain hl | hl := Nat.lt_or_ge q.request.buf.length len.toNat
  · rw [execBuf_of_gt h hl] at hexec
    cases hexec
    simp [hl]
  · rw [execBuf_of_le h hl] at hexec
    cases hexec
    simp [hl]

end Sys2Proof.Machine

namespace Sys2Proof.Proofs.Exceptions

open Sys2Proof Sys2Proof.Machine

/-- Settles O12: what a step adds are the words of responses, and each kind of response has its layout. -/
theorem faultCodesProduced : Obligations.FaultCodesProduced := by
  refine ⟨rfl, rfl, fun s t hstep => ?_⟩
  rw [step_eq] at hstep
  cases hstep
  refine ⟨_, serveFirst_delivered 1 s, fun d hd => ?_⟩
  obtain ⟨q, -, rfl⟩ := List.mem_map.1 hd
  exact encodeResp_bit31_or_code (responseTo s.table q.request)

/-- Settles O28: `CRC8.BYTE` responds, and `CRC8.BUF` leaves the record exactly when `LEN` is within `AVAIL`, which both states share. -/
theorem whichOperationsFault : Obligations.WhichOperationsFault := by
  refine ⟨fun s q rest crc data h hd => ?_, fun s t crc len hexec => ?_,
    fun s s' t t' q q' rest rest' crc crc' len h h' hsize hexec hexec' => ?_⟩
  · exact ⟨_, (step_of_decode_ok h hd).trans (execByte_of_pending h crc data), rfl, rfl⟩
  · obtain ⟨-, -, -, -, hrecord⟩ := Crc8Update.execFrame (.buf crc len) s t hexec
    exact hrecord.imp_right fun ⟨_, _, _, _, _, _, hadded⟩ => ⟨_, _, _, _, hadded⟩
  · rw [exec_buf_faultRecord_eq_iff h hexec, exec_buf_faultRecord_eq_iff h' hexec', hsize]

/-- Settles O30: the words that R52 lists are those that do not decode. -/
theorem illegalWordTaken : Obligations.IllegalWordTaken :=
  fun _ _ _ h hillegal => step_takes_illegalOperation h (decode_eq_error_iff.2 (neitherFormat_iff.2 hillegal))

/-- Settles O31: a word that does not decode takes `IllegalOperation`; any other step responds, or raises the one fault of its request. -/
theorem oneFaultDecodingFirst : Obligations.OneFaultDecodingFirst := by
  intro s t q rest h hstep
  refine ⟨fun ⟨e, hd⟩ => ?_, ?_⟩
  · rw [step_takes_illegalOperation h hd] at hstep
    cases hstep; rfl
  · obtain ⟨crc, hok⟩ | ⟨f, hf, hfault⟩ := step_of_pending h
    · rw [hok] at hstep
      cases hstep
      exact .inl (respond_faultRecord _ s)
    · rw [hfault, raise_of_pending h] at hstep
      cases hstep
      refine .inr ⟨_, rfl, fun cmd len a hover => ?_⟩
      obtain ⟨-, rfl, -⟩ | ⟨hbuf, -, -, -⟩ := hf
      · cases hover
      · exact hbuf

/-- Settles O32: a step that records is the raising of the request's fault, and what the next step adds is a function of the table and the
requests that wait. -/
theorem faultEndsOnlyItsRequest : Obligations.FaultEndsOnlyItsRequest := by
  intro s t q rest h hstep hrecords
  obtain ⟨crc, hok⟩ | ⟨f, hf, hfault⟩ := step_of_pending h
  · rw [hok] at hstep
    cases hstep
    exact absurd (respond_faultRecord _ s) hrecords
  · rw [hfault, raise_of_pending h] at hstep
    cases hstep
    refine ⟨rfl, rfl, ⟨_, f, rfl, rfl, decodeResp_encodeResp _, resultByte?_encodeResp_fault _⟩,
      fun t' u u' htable hpending hu hu' => ?_⟩
    rw [step_eq] at hu hu'
    cases hu
    cases hu'
    simp [htable, hpending]

/-- Settles O33: two steps serve the two requests, each with the response and the entry that its own words make. -/
theorem twoFaultsAreIndependent : Obligations.TwoFaultsAreIndependent := by
  intro s p q rest f g v w h hp hq
  rw [run_eq]
  simp [serveFirst, h, deliveryFor_of_raises hp, deliveryFor_of_raises hq, faultEntryFor?_of_raises hp,
    faultEntryFor?_of_raises hq]

/-- Settles O34: a run adds to the record what it adds to the responses, and success asks for an empty record. -/
theorem faultRecordNeverCleared : Obligations.FaultRecordNeverCleared := by
  refine ⟨fun n s t hrun => ?_, fun s hs => ?_⟩
  · rw [run_eq] at hrun
    cases hrun
    refine ⟨⟨_, rfl⟩, fun hcomplete => ?_⟩
    rw [serveFirst_faultRecord, serveFirst_delivered, List.map_append, List.filterMap_append, hcomplete,
      map_faultReported_filterMap_faultEntryFor?]
  · rw [Bool.eq_false_iff, ne_eq, allSucceeded_iff]
    exact fun ⟨_, _, hempty⟩ => hs hempty

/-- Settles O40: serving all that waits delivers to each request its response, which is its answer alone. -/
theorem everyRequestEnds : Obligations.EveryRequestEnds := by
  intro s
  obtain ⟨t, hserve, hpending, hdelivered⟩ := serveAll_delivers s
  refine ⟨t, hserve, hpending, ?_⟩
  simp [hdelivered, answerAlone_eq, deliveryFor]

/-- Settles O42: the new responses of a caller are the image of its own requests under a function of the table. -/
theorem callersAreIsolated : Obligations.CallersAreIsolated := by
  intro s s' caller htable hrequests
  refine ⟨_, _, _, serveAll_eq s, serveAll_eq s', deliveriesTo_of_serveAll (serveAll_eq s) caller, ?_⟩
  rw [htable, hrequests]
  exact deliveriesTo_of_serveAll (serveAll_eq s') caller

/-- Settles O43: under the invariant a caller's success is read off its response words, and the success of all is that of each. -/
theorem successMeansNoFaultResponse : Obligations.SuccessMeansNoFaultResponse := by
  refine ⟨fun s caller hs => hs.succeeded_iff caller, fun s e he => ?_, fun s hs => ?_, fun s => allSucceeded_iff_forall_succeeded⟩
  · rw [Bool.eq_false_iff, ne_eq, succeeded_iff]
    rintro ⟨-, -, hempty⟩
    have hentry : e ∈ faultsOf e.caller s := List.mem_filter.2 ⟨he, beq_self_eq_true e.caller⟩
    exact List.not_mem_nil (hempty ▸ hentry)
  · simp only [allSucceeded_iff_forall_succeeded, hs.succeeded_iff, forall_and]
    exact and_congr forall_caller_filter_eq_nil forall_caller_mem_filter

/-- Settles O44: the result bytes of the new responses are those of the answers to the caller's requests. -/
theorem observationInIssueOrder : Obligations.ObservationInIssueOrder := by
  intro s caller
  refine ⟨_, serveAll_eq s, ?_⟩
  rw [observation_of_serveAll (serveAll_eq s)]
  simp only [answerAlone_eq, Option.bind_some]

/-- Settles O50: what serving adds to the caller's responses and record is results and no entry exactly when each of its requests gets a
result. -/
theorem callersRunEnds : Obligations.CallersRunEnds := by
  intro s caller
  have hserve := serveAll_eq s
  refine ⟨by simp [ended, requestsOf], _, hserve, ended_of_serveAll hserve caller, ?_⟩
  rw [succeeded_iff, requestsOf_of_serveAll hserve, deliveriesTo_of_serveAll hserve, faultsOf_of_serveAll hserve,
    List.forall_mem_append, List.forall_mem_map, List.append_eq_nil_iff, List.filterMap_eq_nil_iff]
  simp only [resultByte?_deliveryFor_isSome_iff, faultEntryFor?_eq_none_iff s.table, answerAlone_eq_ok_iff]
  tauto

/-- Settles O51: after the first byte the last byte observed is the accumulator, and the loop keeps that to its end. -/
theorem lastObservedByteIsTheChecksum : Obligations.LastObservedByteIsTheChecksum := by
  intro s caller crc0 bytes hne
  obtain ⟨b, rest, rfl⟩ := List.exists_cons_of_ne_nil hne
  obtain ⟨t, hloop⟩ := byteLoop_eq caller crc0 (b :: rest) s
  obtain ⟨u, hcons, hended, hlast⟩ := byteLoop_cons caller crc0 b rest s
  exact ⟨_, t, hloop, byteLoop_keeps_finalChecksum hended hlast (hcons ▸ hloop)⟩

/-- Settles O17, by the branch of `CRC8.BUF` beyond its bound. -/
theorem bufOverrunTaken : Obligations.BufOverrunTaken := by
  intro s q rest crc len h hl
  rw [← encodeResp_bufferOverrun]
  exact execBuf_of_gt h hl crc

end Sys2Proof.Proofs.Exceptions

/-! The statements of spec/70_reset_and_hazards.md: what reset leaves (R89), that the engine waits while no request is in progress (R91), and
that neither operation changes anything there. -/

namespace Sys2Proof.Machine

/-! ### With no request in progress (R91) -/

/-- Any number of steps serves the requests that wait, and there are none (log entry 6). -/
theorem run_of_waiting {s : State} (h : s.pending = []) (n : Nat) : Host.Core.run Sys2Proof.core n s = .next s := by
  rw [run_eq, serveFirst_of_waiting h]

/-- Each way an operation can end answers the request in progress, and there is none (log entry 10). -/
theorem exec_of_waiting {s : State} (h : s.pending = []) (i : Instr) : exec i s = .next s := by
  obtain ⟨crc, hok⟩ | ⟨_, _, -, -, hfault⟩ := exec_outcomes i s
  · rw [hok, respond_of_waiting h]
  · rw [hfault, raise_of_waiting h]

/-! ### The first request, and the table after reset (R26, R89) -/

/-- A request presented while none waits is the one in progress, and the next step answers it. -/
theorem step_present_of_waiting {s : State} (h : s.pending = []) (caller : Nat) (r : Request) :
    ∃ t, step (present caller r s) = .next t ∧ t.delivered = s.delivered ++ [deliveryFor s.table ⟨caller, r⟩] := by
  have hfirst : (present caller r s).pending = [⟨caller, r⟩] := by rw [present_pending, h, List.nil_append]
  obtain ⟨t, hstep, -, -, hdelivered⟩ := step_delivers hfirst
  exact ⟨t, hstep, hdelivered⟩

/-- Beyond entry 0 the table parameter holds the free entries (R6). -/
theorem tableRead_crc8Table_of_ne_zero {i : Byte} (h : i ≠ 0x00#8) : tableRead Config.crc8Table i = Config.crc8Entry i := by
  have hindex : i.toFin ≠ 0 := fun hzero => h (BitVec.toFin_inj.1 hzero)
  simp [tableRead, Config.crc8Table, hindex]

end Sys2Proof.Machine

namespace Sys2Proof.Proofs.ResetAndHazards

open Sys2Proof Sys2Proof.Machine

/-- Settles O36: reset is one of the states in which no request waits. -/
theorem waitsForARequest : Obligations.WaitsForARequest :=
  ⟨fun _ n h => run_of_waiting h n, run_of_waiting reset_pending⟩

/-- Settles O35: the table is the parameter, entry 0 is that of every table, and the first request presented is answered at once. -/
theorem resetLeaves : Obligations.ResetLeaves := by
  refine ⟨reset_table, tableRead_zero _, fun _ => tableRead_crc8Table_of_ne_zero, rfl, reset_pending, reset_faultRecord,
    fun caller r => ?_⟩
  obtain ⟨t, hstep, hdelivered⟩ := step_present_of_waiting reset_pending caller r
  exact ⟨t, _, hstep, hdelivered⟩

/-- Settles O45: after reset nothing waits, nothing is delivered and nothing is recorded, so there is nothing to violate a clause. -/
theorem resetMeetsInvariant : Obligations.ResetMeetsInvariant where
  portsBounded := List.forall_mem_nil _
  responsesLegal := List.forall_mem_nil _
  recordComplete := rfl
  recordJustified := List.forall_mem_nil _

/-- Settles O49: either operation only answers, and there is no request to answer. -/
theorem nothingToAnswer : Obligations.NothingToAnswer :=
  fun i _ h => exec_of_waiting h i

end Sys2Proof.Proofs.ResetAndHazards
